-- ==== Sys2Proof/Word.lean ====
section
/-! DEFINITION. The widths of 00_scope.md R6: every value is unsigned, bit 0 is the least significant. -/

namespace Sys2Proof

/-- A byte: width 8 (R6). -/
abbrev Byte := BitVec 8

/-- The 6-bit value of one symbol (R6). -/
abbrev Sym6 := BitVec 6

/-- The accumulator's width: 3 bytes or 4 symbols (10_state.md R11). -/
abbrev Acc24 := BitVec 24

/-- One command word, presented whole (30_encoding.md R43). -/
abbrev CmdWord := BitVec 12

end Sys2Proof
end

