-- ==== Sys2Proof/Syntax.lean ====
section
/-! DEFINITION. The eleven commands of 30_encoding.md R44, with the operands of R45 and R46. -/

namespace Sys2Proof

/-- A command of the B64TE command set, one constructor per row of the opcode table. Every operand's type holds exactly
the values its field admits (a byte, two option bits), so every term is a well-formed command. -/
inductive Instr where
  /-- ADDB: add one raw byte to the accumulator (40_core_encode.md R59). -/
  | addb (b : Byte)
  /-- GETC: drain the accumulator as symbols (R60). -/
  | getc
  /-- ADDC: add one alphabet character to the accumulator (41_core_decode.md R63). -/
  | addc (ch : Byte)
  /-- GETB: drain the accumulator as bytes (R64). -/
  | getb
  /-- CLR: clear the accumulator (40_core_encode.md R58). -/
  | clr
  /-- ENCS: start an encode run with line wrap `lw` and no padding `np` (42_encoder.md R66). -/
  | encs (lw np : Bool)
  /-- ENCB: encode one input byte (R67). -/
  | encb (b : Byte)
  /-- ENCE: end of input of an encode run (R68). -/
  | ence
  /-- DECS: start a decode run (43_decoder.md R72). -/
  | decs
  /-- DECC: decode one input character (R73). -/
  | decc (ch : Byte)
  /-- DECE: end of input of a decode run (R74). -/
  | dece
  deriving DecidableEq, Repr

end Sys2Proof
end

