-- ==== Sys2Proof/Decode.lean ====
section
/-! DEFINITION. The command encoding (30_encoding.md R43 to R48): decoder, encoder and opcode table. -/

namespace Sys2Proof

/-- What a command word decodes to: a command, or one of the two reasons of R52 steps 2 and 3. -/
inductive Decoded where
  /-- A legal encoding (R44). -/
  | command (i : Instr)
  /-- `OP` is 0x0, 0x6, 0x7, 0xB or 0xF (R47). -/
  | reservedOpcode (op : BitVec 4)
  /-- Nonzero reserved bits of `ARG` (R48). -/
  | reservedArg (op : BitVec 4) (arg : Byte)
  deriving DecidableEq, Repr

/-- `OP`, bits [11:8] (R43). -/
def opField (w : CmdWord) : BitVec 4 := w.extractLsb' 8 4

/-- `ARG`, bits [7:0] (R43). -/
def argField (w : CmdWord) : Byte := w.extractLsb' 0 8

/-- A command without operand: `ARG` must be 0x00 (R45, R48). -/
def plainCommand (i : Instr) (op : BitVec 4) (arg : Byte) : Decoded :=
  if arg = 0#8 then .command i else .reservedArg op arg

/-- ENCS: `lw = ARG[0]`, `np = ARG[1]`, `ARG[7:2]` must be 0 (R46, R48). -/
def encsCommand (op : BitVec 4) (arg : Byte) : Decoded :=
  if arg.extractLsb' 2 6 = 0#6 then .command (.encs (arg.getLsbD 0) (arg.getLsbD 1)) else .reservedArg op arg

/-- The decoder, total on all 4096 words and the same in every MODE (R43, R44, R52 steps 2 and 3). -/
def decode (w : CmdWord) : Decoded :=
  let op := opField w
  let arg := argField w
  match op.toNat with
  | 0x1 => .command (.addb arg)
  | 0x2 => plainCommand .getc op arg
  | 0x3 => .command (.addc arg)
  | 0x4 => plainCommand .getb op arg
  | 0x5 => plainCommand .clr op arg
  | 0x8 => encsCommand op arg
  | 0x9 => .command (.encb arg)
  | 0xA => plainCommand .ence op arg
  | 0xC => plainCommand .decs op arg
  | 0xD => .command (.decc arg)
  | 0xE => plainCommand .dece op arg
  | _ => .reservedOpcode op

/-- The word of a command (R44, R46). -/
def encode : Instr → CmdWord
  | .addb b => 0x1#4 ++ b
  | .getc => 0x2#4 ++ 0#8
  | .addc ch => 0x3#4 ++ ch
  | .getb => 0x4#4 ++ 0#8
  | .clr => 0x5#4 ++ 0#8
  | .encs lw np => 0x8#4 ++ (0#6 ++ (BitVec.ofBool np ++ BitVec.ofBool lw))
  | .encb b => 0x9#4 ++ b
  | .ence => 0xA#4 ++ 0#8
  | .decs => 0xC#4 ++ 0#8
  | .decc ch => 0xD#4 ++ ch
  | .dece => 0xE#4 ++ 0#8

/-- The row of R44's table that a command belongs to: its match and its mask. -/
def opcodeRow : Instr → CmdWord × CmdWord
  | .addb _ => (0x100, 0xF00)
  | .getc => (0x200, 0xFFF)
  | .addc _ => (0x300, 0xF00)
  | .getb => (0x400, 0xFFF)
  | .clr => (0x500, 0xFFF)
  | .encs _ _ => (0x800, 0xFFC)
  | .encb _ => (0x900, 0xF00)
  | .ence => (0xA00, 0xFFF)
  | .decs => (0xC00, 0xFFF)
  | .decc _ => (0xD00, 0xF00)
  | .dece => (0xE00, 0xFFF)

/-- A word `w` selects a row when `w AND mask = match` (R44). -/
def selectsRow (w : CmdWord) (row : CmdWord × CmdWord) : Bool := w &&& row.2 == row.1

/-- A number as a command word; `none` when it does not fit the 12 bits of the command port (log entry 14). -/
def portWord (w : Nat) : Option CmdWord := if w < 4096 then some (BitVec.ofNat 12 w) else none

/-- What the decoder reads from a table word; a command is one 12-bit word, so `nbits` adds nothing. -/
def decodeTableWord (_nbits w : Nat) : Option Instr :=
  match portWord w with
  | none => none
  | some c =>
    match decode c with
    | .command i => some i
    | .reservedOpcode _ => none
    | .reservedArg _ _ => none

end Sys2Proof
end

