-- ==== Sys2Proof/Machine/Alphabet.lean ====
section
/-! DEFINITION. The symbol alphabet and the two other characters of the output (10_state.md R27, R28). The codes are ASCII
(00_scope.md R8; PRESUMED by the spec itself, log entry 13). -/

namespace Sys2Proof.Machine

/-- The line break LF, the single byte 0x0A (42_encoder.md R65). -/
def lf : Byte := 0x0A#8

/-- The padding character `=` (00_scope.md R8). -/
def padChar : Byte := 0x3D#8

/-- The alphabet byte of a 6-bit value (R27, closed form). -/
def enc6 (v : Sym6) : Byte :=
  if v ≤ 25#6 then 0x41#8 + v.setWidth 8
  else if v ≤ 51#6 then 0x61#8 + (v.setWidth 8 - 26#8)
  else if v ≤ 61#6 then 0x30#8 + (v.setWidth 8 - 52#8)
  else if v = 62#6 then 0x2B#8
  else 0x2F#8

/-- The 6-bit value of an alphabet byte, `none` outside the alphabet (R28, closed form). -/
def dec6 (c : Byte) : Option Sym6 :=
  if 0x41#8 ≤ c ∧ c ≤ 0x5A#8 then some ((c - 0x41#8).setWidth 6)
  else if 0x61#8 ≤ c ∧ c ≤ 0x7A#8 then some ((c - 0x61#8 + 26#8).setWidth 6)
  else if 0x30#8 ≤ c ∧ c ≤ 0x39#8 then some ((c - 0x30#8 + 52#8).setWidth 6)
  else if c = 0x2B#8 then some 62#6
  else if c = 0x2F#8 then some 63#6
  else none

end Sys2Proof.Machine
end

