-- ==== Sys2Proof/Config.lean ====
section
/-! DEFINITION. What an instance fixes (00_scope.md R5) and the free values of fault entry (60_exceptions.md R91). -/

namespace Sys2Proof

/-- `PADCHECK` (00_scope.md R5, 43_decoder.md R75): only `lenient` is specified, `strict` is named to be refused. -/
inductive PadCheck where
  | lenient
  | strict
  deriving DecidableEq, Repr

/-- The parameters of an instance (00_scope.md R5), fixed for its life. A predicate on the 256 bytes is the list of the
bytes it holds of, so that the parameters are plain data. -/
structure Params where
  /-- `WIDTH`: characters on a full output line. -/
  width : Nat
  /-- `isWS`: the bytes that are whitespace. -/
  ws : List Byte
  /-- `CAP0`: the capacity of an empty OUT. -/
  cap0 : Nat
  /-- `PADCHECK`. -/
  padCheck : PadCheck
  /-- `MAXOUT`: the bound on OUT's length, `none` for unbounded. -/
  maxOut : Option Nat
  deriving DecidableEq, Repr

/-- The defaults of 00_scope.md R5. -/
def Params.default : Params where
  width := 76
  ws := [0x09, 0x0A, 0x0B, 0x0C, 0x0D, 0x20]
  cap0 := 1
  padCheck := .lenient
  maxOut := none

/-! The values that fault entry leaves unspecified (60_exceptions.md R91, 93_implementation_defined.md U3), one per state
element, each of the number of fault entries before (`State.draws`): log entry 3. DESIGN CHOICE (their form), safe but for
a claim that compares two runs. None has a body: nothing can be proved of a value of theirs. -/

/-- `ACC` after a fault. -/
opaque Config.freeAcc : Nat → Acc24
/-- `BC` after a fault. -/
opaque Config.freeBc : Nat → BitVec 2
/-- `CC` after a fault. -/
opaque Config.freeCc : Nat → BitVec 3
/-- `LW` after a fault. -/
opaque Config.freeLw : Nat → Bool
/-- `PAD` after a fault. -/
opaque Config.freePad : Nat → Bool
/-- `COL` after a fault. -/
opaque Config.freeCol : Nat → Nat
/-- `PADSEEN` after a fault. -/
opaque Config.freePadSeen : Nat → Bool
/-- `OUT.data`, and with it `OUT.len`, after a fault. -/
opaque Config.freeOutData : Nat → List Byte
/-- `OUT.cap` after a fault. -/
opaque Config.freeOutCap : Nat → Nat

end Sys2Proof
end

