-- ==== Sys2Proof/Machine/State.lean ====
section
/-! DEFINITION. The machine's state (10_state.md R10), its reset (R26) and the reasons a step can stop. -/

namespace Sys2Proof.Machine

/-- `MODE` (10_state.md R15): which command family the block accepts. -/
inductive Mode where
  | idle
  | enc
  | dec
  | fault
  deriving DecidableEq, Repr

/-- `CAUSE` (10_state.md R20, 60_exceptions.md R86). -/
inductive Cause where
  | none
  | argErr
  | invalidInput
  | protocol
  deriving DecidableEq, Repr

/-- The output ByteBuffer OUT (10_state.md R21). `OUT.len` is the length of `data` (log entry 11). -/
structure OutBuffer where
  data : List Byte
  cap : Nat
  deriving DecidableEq, Repr

/-- An empty buffer of capacity `CAP0`. -/
def OutBuffer.empty (cap0 : Nat) : OutBuffer := { data := [], cap := cap0 }

/-- A response `(n, s)` as the sequence `s` of exactly `n` bytes (10_state.md R22). -/
abbrev Response := List Byte

/-- What the host can do to the block: present a command word or assert reset (60_exceptions.md R100). -/
inductive HostAction where
  | command (w : CmdWord)
  | reset
  deriving DecidableEq, Repr

/-- The state: the elements of 10_state.md R10, then the model's own four fields. -/
structure State where
  /-- `ACC`, 24 bits (R11). -/
  acc : Acc24
  /-- `BC`, bytes held on the encode path (R12). -/
  bc : BitVec 2
  /-- `CC`, symbols held on the decode path (R13). -/
  cc : BitVec 3
  /-- `MODE` (R15). -/
  mode : Mode
  /-- `LW`, line wrap on (R16). -/
  lw : Bool
  /-- `PAD`, padding on (R16). -/
  pad : Bool
  /-- `COL`, characters on the current output line (R17). -/
  col : Nat
  /-- `PADSEEN`, a `=` was seen in this decode run (R18). -/
  padSeen : Bool
  /-- `DONE`, the last run ended without a fault (R19). -/
  done : Bool
  /-- `CAUSE` (R20). -/
  cause : Cause
  /-- `OUT` (R21). -/
  out : OutBuffer
  /-- The instance's parameters (00_scope.md R5), which no step changes (log entry 5). -/
  params : Params
  /-- The host's actions not yet taken, oldest first (R24, log entry 1). -/
  host : List HostAction
  /-- The response of the step just taken, `none` when it gave none (R22, log entry 2). -/
  rsp : Option Response
  /-- How many fault entries have drawn free values (log entries 3 and 4). -/
  draws : Nat
  deriving DecidableEq, Repr

/-- The reset state of an instance (10_state.md R26, 70_reset_and_hazards.md R101), with no host action pending. -/
def State.resetWith (p : Params) : State where
  acc := 0#24
  bc := 0#2
  cc := 0#3
  mode := .idle
  lw := false
  pad := false
  col := 0
  padSeen := false
  done := false
  cause := .none
  out := OutBuffer.empty p.cap0
  params := p
  host := []
  rsp := none
  draws := 0

/-- The machine right after reset, with the default parameters. -/
def State.reset : State := State.resetWith Params.default

/-- The model's own stops, all in states that no run reaches from reset (42_encoder.md R69, 43_decoder.md R76, 10_state.md
R14): a TCS micro-operation outside its precondition, where the spec gives it no meaning (U1, U2). The spec's three faults
are NOT here: each is a next state with MODE = FAULT (60_exceptions.md R91). -/
inductive Fault where
  /-- `tcs_addByte` with `BC = 3` or `CC ≠ 0` (R56). Raised by ENCB in unreachable states. Safe: log entry 8. -/
  | addByteUndefined
  /-- `tcs_getChars` with `CC ≠ 0` (R57). Raised by ENCE in unreachable states. Safe: log entry 8. -/
  | getCharsUndefined
  /-- `tcs_addChar` with `CC > 3`, `BC ≠ 0` or a non-alphabet byte (R61). Raised by ADDC (`CC > 4`) and DECC in
  unreachable states. Safe: log entry 8. -/
  | addCharUndefined
  /-- `tcs_getBytes` with `BC ≠ 0` or `CC > 4` (R62). Raised by GETB (`CC > 4`) and DECE in unreachable states. Safe: log
  entry 8. -/
  | getBytesUndefined
  deriving DecidableEq, Repr

/-- What the model has no meaning for. -/
inductive Refusal where
  /-- A command with no meaning yet. Raised by no arm of this model. Safe. -/
  | notModelled (mnemonic : String)
  /-- An instance with `PADCHECK = strict`: "outside this spec and must be refused" (43_decoder.md R75). Raised by every
  step of it. Safe: log entry 6. -/
  | strictPadCheck
  /-- An instance whose parameters break a constraint of 00_scope.md R5 (U14). Raised by every step of it. Safe: log
  entry 6. -/
  | illFormedParams
  /-- An OutAppend past a finite `MAXOUT` (20_memory.md R41): "no step". Raised by ENCB, ENCE, DECC, DECE. Safe: log
  entry 7. -/
  | outExhausted
  deriving DecidableEq, Repr

end Sys2Proof.Machine
end

