-- ==== Sys2Proof/Machine/Operands.lean ====
section
/-! DEFINITION. The two views of ACC (10_state.md R11), the counts of a drain (40_core_encode.md R57, 41_core_decode.md R62)
and the classes of an input character (43_decoder.md R70). -/

namespace Sys2Proof.Machine

/-- `ACC[lo+n-1 : lo] <- v`: the other bits keep their value (00_scope.md R7). -/
def writeField {n : Nat} (acc : Acc24) (lo : Nat) (v : BitVec n) : Acc24 :=
  (acc &&& ~~~((BitVec.allOnes n).setWidth 24 <<< lo)) ||| (v.setWidth 24 <<< lo)

/-- The low end of byte lane `i`, `ACC[23-8i : 16-8i]` (R11). -/
def laneLow (i : Nat) : Nat := 16 - 8 * i

/-- The low end of symbol slot `j`, `ACC[23-6j : 18-6j]` (R11). -/
def slotLow (j : Nat) : Nat := 18 - 6 * j

/-- Byte lane `i` of ACC (R11). -/
def byteLane (acc : Acc24) (i : Nat) : Byte := acc.extractLsb' (laneLow i) 8

/-- Symbol slot `j` of ACC (R11). -/
def symSlot (acc : Acc24) (j : Nat) : Sym6 := acc.extractLsb' (slotLow j) 6

/-- How many symbols a drain of `BC` bytes gives (40_core_encode.md R57). -/
def charCount (bc : BitVec 2) : Nat :=
  match bc.toNat with
  | 0 => 0
  | 1 => 2
  | 2 => 3
  | _ => 4

/-- How many bytes a drain of `CC` symbols gives, for `CC` in 0..4 (41_core_decode.md R62). -/
def byteCount (cc : BitVec 3) : Nat :=
  match cc.toNat with
  | 0 => 0
  | 1 => 0
  | 2 => 1
  | 3 => 2
  | _ => 3

/-- The symbols that `tcs_getChars` returns (R57). -/
def heldChars (s : State) : List Byte :=
  [enc6 (symSlot s.acc 0), enc6 (symSlot s.acc 1), enc6 (symSlot s.acc 2), enc6 (symSlot s.acc 3)].take (charCount s.bc)

/-- The bytes that `tcs_getBytes` returns (R62). -/
def heldBytes (s : State) : List Byte :=
  [byteLane s.acc 0, byteLane s.acc 1, byteLane s.acc 2].take (byteCount s.cc)

/-- `isWS` (00_scope.md R5). -/
def isWS (p : Params) (c : Byte) : Bool := p.ws.contains c

/-- The class of an input character (43_decoder.md R70). -/
inductive CharClass where
  | ws
  | padCh
  | bad
  | sym (v : Sym6)
  deriving DecidableEq, Repr

/-- The classification, tested in the order of R70. -/
def classify (p : Params) (ch : Byte) : CharClass :=
  if isWS p ch then .ws
  else if ch = padChar then .padCh
  else
    match dec6 ch with
    | none => .bad
    | some v => .sym v

/-- A final group with its padding: `=` up to 4 characters when `PAD = 1` (42_encoder.md R68). -/
def padGroup (pad : Bool) (cs : List Byte) : List Byte :=
  if pad then cs ++ List.replicate (4 - cs.length) padChar else cs

/-- Byte `i` of OUT as the host reads it; none at or above `OUT.len` (20_memory.md R29, R31). -/
def OutBuffer.read (o : OutBuffer) (i : Nat) : Option Byte := o.data[i]?

/-- `OUT.len` (10_state.md R10). -/
def OutBuffer.len (o : OutBuffer) : Nat := o.data.length

/-- Response count `n` (10_state.md R22). -/
def responseCount (r : Response) : Nat := r.length

/-- Response lane `i`; the model has no lane at or above the count (30_encoding.md R53, U4). -/
def responseLane (r : Response) (i : Nat) : Option Byte := r[i]?

end Sys2Proof.Machine
end

