-- ==== Sys2Proof/WellFormed.lean ====
section
/-! DEFINITION. What makes an instance well formed: the constraints of 00_scope.md R5 and 43_decoder.md R70, R71. A command
carries its own well-formedness (the types of `Instr`'s operands), so the checks here are all on the parameters. -/

namespace Sys2Proof

/-- `WIDTH mod 4 = 0` and `WIDTH >= 4` (R5, U14). -/
def Params.widthWf (p : Params) : Bool := p.width % 4 == 0 && 4 ≤ p.width

/-- `isWS` must hold of 0x0A (R5, R71). -/
def Params.lfIsWs (p : Params) : Bool := p.ws.contains Machine.lf

/-- No whitespace byte is in the alphabet or is `=` (R70). -/
def Params.wsDisjoint (p : Params) : Bool :=
  p.ws.all fun c => (Machine.dec6 c).isNone && c != Machine.padChar

/-- `CAP0 >= 1` (R5). -/
def Params.cap0Wf (p : Params) : Bool := 1 ≤ p.cap0

/-- All constraints on the parameters. -/
def Params.wf (p : Params) : Bool := p.widthWf && p.lfIsWs && p.wsDisjoint && p.cap0Wf

end Sys2Proof
end

