-- ==== Sys2Proof/Machine/Ops.lean ====
section
/-! DEFINITION. The shared operations: state updates, the guards of decoding order, fault entry, the five micro-operations
on TCS, OutAppend and the host's reset. An operation that can stop takes what follows it as its last argument. -/

namespace Sys2Proof.Machine

/-- The outcome of a step of this machine. -/
abbrev Result := Host.Outcome State Fault Refusal

/-! ## State updates -/

/-- No response on RSP: the last one is not latched (10_state.md R22). -/
def State.noResponse (s : State) : State := { s with rsp := none }

/-- The response `(n, r)` on RSP (00_scope.md R7). -/
def State.withResponse (s : State) (r : Response) : State := { s with rsp := some r }

/-- `tcs_clear` (40_core_encode.md R55). -/
def State.clearTcs (s : State) : State := { s with acc := 0#24, bc := 0#2, cc := 0#3 }

/-- The effect of `tcs_addByte(b)` (R56). -/
def State.putByte (s : State) (b : Byte) : State :=
  { s with acc := writeField s.acc (laneLow s.bc.toNat) b, bc := s.bc + 1#2 }

/-- The effect of `tcs_addChar` of a character of value `v` (41_core_decode.md R61). -/
def State.putSym (s : State) (v : Sym6) : State :=
  { s with acc := writeField s.acc (slotLow s.cc.toNat) v, cc := s.cc + 1#3 }

/-- One byte at the end of the buffer; the capacity doubles when full (20_memory.md R30). -/
def OutBuffer.push (o : OutBuffer) (b : Byte) : OutBuffer where
  data := o.data ++ [b]
  cap := if o.data.length = o.cap then 2 * o.cap else o.cap

/-- The effect of `OutAppend(b)` (R30). -/
def State.pushOut (s : State) (b : Byte) : State := { s with out := s.out.push b }

/-- `COL` after `n` characters on the line: counted only when `LW = 1` (42_encoder.md R65). -/
def State.countCol (s : State) (n : Nat) : State := { s with col := if s.lw then s.col + n else s.col }

/-- What ENCS and DECS do alike (42_encoder.md R66, 43_decoder.md R72): fresh TCS and OUT, flags and COL to 0, MODE. -/
def State.startRun (s : State) (m : Mode) : State :=
  { s.clearTcs with
    col := 0, padSeen := false, out := OutBuffer.empty s.params.cap0, done := false, mode := m }

/-- The successful end of a run (R68, R74, 70_reset_and_hazards.md R109). -/
def State.endRun (s : State) : State := { s with done := true, mode := .idle }

/-- Fault entry (60_exceptions.md R91): CAUSE, MODE and DONE as given, no response, every other element of the block
unspecified, so a free value (log entry 3). -/
def State.faulted (s : State) (c : Cause) : State :=
  { s with
    cause := c
    mode := .fault
    done := false
    rsp := none
    acc := Config.freeAcc s.draws
    bc := Config.freeBc s.draws
    cc := Config.freeCc s.draws
    lw := Config.freeLw s.draws
    pad := Config.freePad s.draws
    col := Config.freeCol s.draws
    padSeen := Config.freePadSeen s.draws
    out := { data := Config.freeOutData s.draws, cap := Config.freeOutCap s.draws }
    draws := s.draws + 1 }

/-- Reset (70_reset_and_hazards.md R101): every element of the block as R26 says. The instance keeps its parameters, the
host its further actions, and no free value is drawn twice (log entry 4). -/
def State.hostReset (s : State) : State :=
  { State.resetWith s.params with host := s.host, draws := s.draws }

/-! ## Ending a command -/

/-- `respond(n, r)`: the command completes. -/
def respond (r : Response) (s : State) : Result := .next (s.withResponse r)

/-- `raise c` (60_exceptions.md R91): taking the fault is the command's next state. -/
def raise (c : Cause) (s : State) : Result := .next (s.faulted c)

/-! ## Guards -/

/-- Why an instance has no meaning, if it has none (43_decoder.md R75, 00_scope.md R5, U14). -/
def instanceRefusal (p : Params) : Option Refusal :=
  if p.padCheck = .strict then some .strictPadCheck
  else if p.wf then none
  else some .illFormedParams

/-- Every step is that of an instance the spec gives a meaning to (log entry 6). -/
def onInstance (s : State) (k : State → Result) : Result :=
  match instanceRefusal s.params with
  | some r => .refused r
  | none => k s

/-- R52 step 1: in `MODE = FAULT` the word is ignored, whatever it is (60_exceptions.md R92). -/
def receive (s : State) (k : State → Result) : Result :=
  onInstance s fun s => if s.mode = .fault then .next s.noResponse else k s

/-- R52 step 4: a command that is legal in mode `m` only, else ARGERR (60_exceptions.md R87). -/
def legalIn (m : Mode) (s : State) (k : State → Result) : Result :=
  receive s fun s => if s.mode = m then k s else raise .argErr s

/-- R52 steps 2 and 3: a word that is no legal encoding raises ARGERR (30_encoding.md R47, R48). -/
def illegalWord (s : State) : Result := receive s (raise .argErr)

/-! ## Micro-operations on TCS -/

/-- `tcs_addByte(b)`, defined only when `BC < 3` and `CC = 0` (40_core_encode.md R56). -/
def tcsAddByte (b : Byte) (s : State) (k : State → Result) : Result :=
  if s.bc.toNat < 3 ∧ s.cc = 0#3 then k (s.putByte b) else .fault .addByteUndefined

/-- `tcs_getChars`, defined when `CC = 0`: the symbols, and TCS clear (R57). -/
def tcsGetChars (s : State) (k : List Byte → State → Result) : Result :=
  if s.cc = 0#3 then k (heldChars s) s.clearTcs else .fault .getCharsUndefined

/-- `tcs_addChar(ch)`, defined only when `CC < 4`, `BC = 0` and `ch` is in the alphabet (41_core_decode.md R61). -/
def tcsAddChar (ch : Byte) (s : State) (k : State → Result) : Result :=
  match dec6 ch with
  | some v => if s.cc.toNat < 4 ∧ s.bc = 0#2 then k (s.putSym v) else .fault .addCharUndefined
  | none => .fault .addCharUndefined

/-- `tcs_getBytes`, defined when `BC = 0` for `CC` in 0..4: the bytes, and TCS clear (R62). -/
def tcsGetBytes (s : State) (k : List Byte → State → Result) : Result :=
  if s.bc = 0#2 ∧ s.cc.toNat ≤ 4 then k (heldBytes s) s.clearTcs else .fault .getBytesUndefined

/-! ## The output buffer -/

/-- OUT can take `n` more bytes within `MAXOUT` (20_memory.md R41). -/
def hasRoom (s : State) (n : Nat) : Bool :=
  match s.params.maxOut with
  | none => true
  | some m => s.out.data.length + n ≤ m

/-- `OutAppend(b)` (R30); past a finite `MAXOUT` the command is refused (R41, log entry 7). -/
def outAppend (b : Byte) (s : State) (k : State → Result) : Result :=
  if hasRoom s 1 then k (s.pushOut b) else .refused .outExhausted

/-- `OutAppendAll(bs)`, in index order (00_scope.md R7). -/
def outAppendAll : List Byte → State → (State → Result) → Result
  | [], s, k => k s
  | b :: bs, s, k => outAppend b s fun s => outAppendAll bs s k

/-! ## The host's actions -/

/-- No action pending: the block waits for its next command (70_reset_and_hazards.md R105, R108; log entry 10). -/
def waitForHost (s : State) : Result := onInstance s fun s => .next s.noResponse

/-- The host asserts reset (R101). -/
def takeReset (s : State) : Result := onInstance s fun s => .next s.hostReset

end Sys2Proof.Machine
end

