-- ==== Sys2Proof/Machine/Decoder.lean ====
section
/-! DEFINITION. The decoder sequencer (43_decoder.md). -/

namespace Sys2Proof.Machine

/-- DECS' own rule (R72): LW and PAD keep their values. -/
def ruleDecs (s : State) : Result := respond [] (s.startRun .dec)

/-- DECS (R72). -/
def execDecs (s : State) : Result := legalIn .idle s ruleDecs

/-- DECC with an alphabet character: add it, and drain a full group to OUT (R73). -/
def takeSymbol (ch : Byte) (s : State) : Result :=
  tcsAddChar ch s fun s =>
    if s.cc = 4#3 then tcsGetBytes s fun bs s => outAppendAll bs s (respond [])
    else respond [] s

/-- DECC's own rule (R73), by R70's classes. -/
def ruleDecc (ch : Byte) (s : State) : Result :=
  match classify s.params ch with
  | .ws => respond [] s
  | .padCh => respond [] { s with padSeen := true }
  | .bad => raise .invalidInput s
  | .sym _ => if s.padSeen then raise .invalidInput s else takeSymbol ch s

/-- DECC ch (R73). -/
def execDecc (ch : Byte) (s : State) : Result := legalIn .dec s (ruleDecc ch)

/-- DECE's own rule (R74): PADSEEN keeps its value. -/
def ruleDece (s : State) : Result := tcsGetBytes s fun bs s => outAppendAll bs s fun s => respond [] s.endRun

/-- DECE (R74). -/
def execDece (s : State) : Result := legalIn .dec s ruleDece

end Sys2Proof.Machine
end

