-- ==== Sys2Proof/Machine/Encoder.lean ====
section
/-! DEFINITION. The encoder sequencer (42_encoder.md). -/

namespace Sys2Proof.Machine

/-- The wrap break: an LF when the current line is full (R65). -/
def breakIfFull (s : State) (k : State → Result) : Result :=
  if s.lw = true ∧ s.col = s.params.width then outAppend lf s fun s => k { s with col := 0 } else k s

/-- `emitGroup(g)` (R65). -/
def emitGroup (g : List Byte) (s : State) (k : State → Result) : Result :=
  breakIfFull s fun s => outAppendAll g s fun s => k (s.countCol g.length)

/-- The flush of a partial group at the end of input (R68). -/
def flushGroup (s : State) (k : State → Result) : Result :=
  if s.bc = 0#2 then k s else tcsGetChars s fun cs s => emitGroup (padGroup s.pad cs) s k

/-- ENCS' own rule (R66); `PAD` is the complement of `np` (C1). -/
def ruleEncs (lw np : Bool) (s : State) : Result := respond [] { s.startRun .enc with lw := lw, pad := !np }

/-- ENCS lw, np (R66). -/
def execEncs (lw np : Bool) (s : State) : Result := legalIn .idle s (ruleEncs lw np)

/-- ENCB's own rule (R67). -/
def ruleEncb (b : Byte) (s : State) : Result :=
  tcsAddByte b s fun s =>
    if s.bc = 3#2 then tcsGetChars s fun cs s => emitGroup cs s (respond [])
    else respond [] s

/-- ENCB b (R67). -/
def execEncb (b : Byte) (s : State) : Result := legalIn .enc s (ruleEncb b)

/-- ENCE's own rule (R68). -/
def ruleEnce (s : State) : Result := flushGroup s fun s => outAppend lf s fun s => respond [] s.endRun

/-- ENCE (R68). -/
def execEnce (s : State) : Result := legalIn .enc s ruleEnce

end Sys2Proof.Machine
end

