-- ==== Sys2Proof/Machine/RawDecode.lean ====
section
/-! DEFINITION. The raw commands of the decode path (41_core_decode.md). -/

namespace Sys2Proof.Machine

/-- ADDC's own rule (R63). -/
def ruleAddc (ch : Byte) (s : State) : Result :=
  if s.cc = 4#3 then raise .protocol s
  else if s.bc ≠ 0#2 then raise .protocol s
  else if dec6 ch = none then raise .protocol s
  else tcsAddChar ch s (respond [])

/-- ADDC ch (R63). -/
def execAddc (ch : Byte) (s : State) : Result := legalIn .idle s (ruleAddc ch)

/-- GETB's own rule (R64). -/
def ruleGetb (s : State) : Result :=
  if s.bc ≠ 0#2 then raise .protocol s
  else tcsGetBytes s respond

/-- GETB (R64). -/
def execGetb (s : State) : Result := legalIn .idle s ruleGetb

end Sys2Proof.Machine
end

