-- ==== Sys2Proof/Machine/RawEncode.lean ====
section
/-! DEFINITION. The raw commands of the encode path (40_core_encode.md): each command's own rule (30_encoding.md R52 step 5),
then the command with its MODE check. -/

namespace Sys2Proof.Machine

/-- CLR's own rule (R58). -/
def ruleClr (s : State) : Result := respond [] s.clearTcs

/-- CLR (R58). -/
def execClr (s : State) : Result := legalIn .idle s ruleClr

/-- ADDB's own rule (R59). -/
def ruleAddb (b : Byte) (s : State) : Result :=
  if s.bc = 3#2 then raise .protocol s
  else if s.cc ≠ 0#3 then raise .protocol s
  else tcsAddByte b s (respond [])

/-- ADDB b (R59). -/
def execAddb (b : Byte) (s : State) : Result := legalIn .idle s (ruleAddb b)

/-- GETC's own rule (R60). -/
def ruleGetc (s : State) : Result :=
  if s.cc ≠ 0#3 then raise .protocol s
  else tcsGetChars s respond

/-- GETC (R60). -/
def execGetc (s : State) : Result := legalIn .idle s ruleGetc

end Sys2Proof.Machine
end

