-- ==== Sys2Proof/Machine/Dispatch.lean ====
section
/-! DEFINITION. One arm per command of 30_encoding.md R44. -/

namespace Sys2Proof.Machine

def exec (i : Instr) (s : State) : Host.Outcome State Fault Refusal :=
  match i with
  | .addb b => Sys2Proof.Machine.execAddb b s
  | .getc => Sys2Proof.Machine.execGetc s
  | .addc ch => Sys2Proof.Machine.execAddc ch s
  | .getb => Sys2Proof.Machine.execGetb s
  | .clr => Sys2Proof.Machine.execClr s
  | .encs lw np => Sys2Proof.Machine.execEncs lw np s
  | .encb b => Sys2Proof.Machine.execEncb b s
  | .ence => Sys2Proof.Machine.execEnce s
  | .decs => Sys2Proof.Machine.execDecs s
  | .decc ch => Sys2Proof.Machine.execDecc ch s
  | .dece => Sys2Proof.Machine.execDece s

end Sys2Proof.Machine
end

