-- ==== Sys2Proof/Machine/Step.lean ====
section
/-! DEFINITION. One step: the block takes the host's next action (00_scope.md R4). -/

namespace Sys2Proof.Machine

/-- A command word presented to the block: decoded (30_encoding.md R52), then executed or, where no command is encoded,
answered as an illegal word. -/
def takeWord (w : CmdWord) (s : State) : Result :=
  match decode w with
  | .command i => exec i s
  | .reservedOpcode _ => illegalWord s
  | .reservedArg _ _ => illegalWord s

/-- One step takes the oldest pending action of the host off its list (10_state.md R24: a command advances the position in
the command stream by exactly one) and has the block react to it. -/
def step (s : State) : Host.Outcome State Fault Refusal :=
  match s.host with
  | [] => waitForHost s
  | .reset :: rest => takeReset { s with host := rest }
  | .command w :: rest => takeWord w { s with host := rest }

/-- The host presents the word `w` next (log entry 1); a number beyond 12 bits is no command word (log entry 14). -/
def State.withFetchWord (s : State) (_nbits w : Nat) : State :=
  match portWord w with
  | some c => { s with host := .command c :: s.host }
  | none => s

end Sys2Proof.Machine
end

