-- ==== Sys2Proof/Machine/Flags.lean ====
section
/-! DEFINITION. The codes of MODE and CAUSE and the status view (10_state.md R15, R20, R23). -/

namespace Sys2Proof.Machine

/-- The two bits of MODE (R10, R15). -/
def Mode.code : Mode → BitVec 2
  | .idle => 0
  | .enc => 1
  | .dec => 2
  | .fault => 3

/-- The two bits of CAUSE (60_exceptions.md R86). -/
def Cause.code : Cause → BitVec 2
  | .none => 0
  | .argErr => 1
  | .invalidInput => 2
  | .protocol => 3

/-- View register 0, CFG: PAD at [1], LW at [0] (R23). -/
def cfgView (s : State) : BitVec 8 := 0#6 ++ (BitVec.ofBool s.pad ++ BitVec.ofBool s.lw)

/-- View register 1, STATUS: CC [8:6], BC [5:4], PADSEEN [3], DONE [2], MODE [1:0] (R23). -/
def statusView (s : State) : BitVec 16 :=
  0#7 ++ (s.cc ++ (s.bc ++ (BitVec.ofBool s.padSeen ++ (BitVec.ofBool s.done ++ Mode.code s.mode))))

/-- View register 2, CAUSE: [1:0] (R23). -/
def causeView (s : State) : BitVec 8 := 0#6 ++ Cause.code s.cause

/-- View register 3, OLEN: all of it is OUT.len (R23). -/
def olenView (s : State) : Nat := OutBuffer.len s.out

/-- A host read of the status view by register number 0..3 (R23, R37); there is no other register. -/
def viewRead (s : State) (n : Nat) : Option Nat :=
  match n with
  | 0 => some (cfgView s).toNat
  | 1 => some (statusView s).toNat
  | 2 => some (causeView s).toNat
  | 3 => some (olenView s)
  | _ => none

end Sys2Proof.Machine
end

