-- ==== Sys2Proof/Machine/WholeRun.lean ====
section
/-! DEFINITION. The pseudo-instructions ENCODE and DECODE as host actions (30_encoding.md R51) and the closed forms of the two
whole-run functions (44_whole_run.md R77, R78), written from those rules and not from the commands' meanings. -/

namespace Sys2Proof.Machine

/-- A command as the host presents it. -/
def issue (i : Instr) : HostAction := .command (encode i)

/-- `ENCS lw,np; ENCB b0; ...; ENCB b(k-1)`: an encode run still live (R51). -/
def encodePrefix (lw np : Bool) (bs : List Byte) : List HostAction :=
  issue (.encs lw np) :: bs.map fun b => issue (.encb b)

/-- `ENCODE` (R51). -/
def encodeProgram (lw np : Bool) (bs : List Byte) : List HostAction := encodePrefix lw np bs ++ [issue .ence]

/-- `DECS; DECC c0; ...; DECC c(k-1)`: a decode run still live (R51). -/
def decodePrefix (cs : List Byte) : List HostAction := issue .decs :: cs.map fun c => issue (.decc c)

/-- `DECODE` (R51). -/
def decodeProgram (cs : List Byte) : List HostAction := decodePrefix cs ++ [issue .dece]

/-! ## encode (R77) -/

/-- `S(x,y,z)`: the four symbols of a full group. -/
def groupOf3 (x y z : Byte) : List Byte :=
  [enc6 (x.extractLsb' 2 6), enc6 (x.extractLsb' 0 2 ++ y.extractLsb' 4 4),
    enc6 (y.extractLsb' 0 4 ++ z.extractLsb' 6 2), enc6 (z.extractLsb' 0 6)]

/-- `T2(x,y)`: the three symbols of two leftover bytes. -/
def groupOf2 (x y : Byte) : List Byte :=
  [enc6 (x.extractLsb' 2 6), enc6 (x.extractLsb' 0 2 ++ y.extractLsb' 4 4), enc6 (y.extractLsb' 0 4 ++ 0#2)]

/-- `T1(x)`: the two symbols of one leftover byte. -/
def groupOf1 (x : Byte) : List Byte := [enc6 (x.extractLsb' 2 6), enc6 (x.extractLsb' 0 2 ++ 0#4)]

/-- `body`: the symbols of the full groups of an input. -/
def fullGroups : List Byte → List Byte
  | x :: y :: z :: rest => groupOf3 x y z ++ fullGroups rest
  | _ => []

/-- `tail`: the symbols and the padding of the leftover bytes. -/
def tailGroup (np : Bool) : List Byte → List Byte
  | _ :: _ :: _ :: rest => tailGroup np rest
  | [x, y] => groupOf2 x y ++ (if np then [] else [padChar])
  | [x] => groupOf1 x ++ (if np then [] else [padChar, padChar])
  | [] => []

/-- `chars = body ++ tail`. -/
def encodeChars (np : Bool) (bs : List Byte) : List Byte := fullGroups bs ++ tailGroup np bs

/-- `wrap` from a character whose 1-based index is `i`: an LF after each character whose index is a multiple of `width`
and which is not the last. -/
def wrapFrom (width : Nat) : Nat → List Byte → List Byte
  | _, [] => []
  | _, [c] => [c]
  | i, c :: d :: cs =>
    if i % width = 0 then c :: lf :: wrapFrom width (i + 1) (d :: cs) else c :: wrapFrom width (i + 1) (d :: cs)

/-- The characters on their lines: wrapped when `lw = 1`. -/
def onLines (width : Nat) (lw : Bool) (cs : List Byte) : List Byte := if lw then wrapFrom width 1 cs else cs

/-- `encode(B, lw, np)` (R77). -/
def encodeText (width : Nat) (lw np : Bool) (bs : List Byte) : List Byte :=
  onLines width lw (encodeChars np bs) ++ [lf]

/-- The accumulator holding these bytes, at most 3, from byte lane 0 on (42_encoder.md R69 item 2). -/
def packBytes : List Byte → Acc24
  | [] => 0#24
  | [x] => x ++ 0#16
  | [x, y] => x ++ (y ++ 0#8)
  | x :: y :: z :: _ => x ++ (y ++ z)

/-! ## decode (R78) -/

/-- The bits of a 6-bit value, most significant first. -/
def bitsOf (v : Sym6) : List Bool :=
  [v.getLsbD 5, v.getLsbD 4, v.getLsbD 3, v.getLsbD 2, v.getLsbD 1, v.getLsbD 0]

/-- The byte whose bits are these, most significant first. -/
def byteOf (b7 b6 b5 b4 b3 b2 b1 b0 : Bool) : Byte :=
  BitVec.ofBool b7 ++ (BitVec.ofBool b6 ++ (BitVec.ofBool b5 ++ (BitVec.ofBool b4 ++
    (BitVec.ofBool b3 ++ (BitVec.ofBool b2 ++ (BitVec.ofBool b1 ++ BitVec.ofBool b0))))))

/-- The whole bytes of a bit sequence; the fewer than 8 bits left over are discarded. -/
def wholeBytes : List Bool → List Byte
  | b7 :: b6 :: b5 :: b4 :: b3 :: b2 :: b1 :: b0 :: rest => byteOf b7 b6 b5 b4 b3 b2 b1 b0 :: wholeBytes rest
  | _ => []

/-- The accumulator holding these symbol values, at most 4, from slot 0 on (43_decoder.md R76 item 2). -/
def packSyms : List Sym6 → Acc24
  | [] => 0#24
  | [a] => a ++ 0#18
  | [a, b] => a ++ (b ++ 0#12)
  | [a, b, c] => a ++ (b ++ (c ++ 0#6))
  | a :: b :: c :: d :: _ => a ++ (b ++ (c ++ d))

/-- `T'`: the text without its whitespace bytes. -/
def withoutWs (p : Params) (cs : List Byte) : List Byte := cs.filter fun c => !isWS p c

/-- `Y`: the characters of `T'` before its first `=`. -/
def beforePad (cs : List Byte) : List Byte := cs.takeWhile fun c => c != padChar

/-- The 6-bit values of `Y`. -/
def symbolsOf (p : Params) (cs : List Byte) : List Sym6 := (beforePad (withoutWs p cs)).filterMap dec6

/-- Whether `T'` is alphabet characters and then only `=`. -/
def acceptable (cs : List Byte) : Bool :=
  (beforePad cs).all (fun c => (dec6 c).isSome) && (cs.dropWhile fun c => c != padChar).all fun c => c == padChar

/-- `decode(T)` (R78): `none` for `fail(INVALID_INPUT)`. -/
def decodeText (p : Params) (cs : List Byte) : Option (List Byte) :=
  if acceptable (withoutWs p cs) then
    some (wholeBytes ((symbolsOf p cs).flatMap bitsOf))
  else none

end Sys2Proof.Machine
end

