-- ==== Sys2Proof/Safety.lean ====
section
/-! DEFINITION. What claims speak of: an admitted instance, the ends of a run, where a command is legal, and the invariant
of the reachable states. -/

namespace Sys2Proof.Safety

open Sys2Proof.Machine

/-- An instance the spec gives a meaning to: its parameters meet R5's constraints and `PADCHECK = lenient` (R75). -/
def Admitted (s : State) : Prop := s.params.wf = true ∧ s.params.padCheck = .lenient

/-- The MODE in which a command is legal (30_encoding.md R44). -/
def legalMode : Instr → Mode
  | .addb _ => .idle
  | .getc => .idle
  | .addc _ => .idle
  | .getb => .idle
  | .clr => .idle
  | .encs _ _ => .idle
  | .encb _ => .enc
  | .ence => .enc
  | .decs => .idle
  | .decc _ => .dec
  | .dece => .dec

/-- The raw commands (40_core_encode.md R54). -/
def isRaw : Instr → Bool
  | .addb _ => true
  | .getc => true
  | .addc _ => true
  | .getb => true
  | .clr => true
  | .encs _ _ => false
  | .encb _ => false
  | .ence => false
  | .decs => false
  | .decc _ => false
  | .dece => false

/-- The commands that empty OUT (10_state.md R21). -/
def startsRun : Instr → Bool
  | .encs _ _ => true
  | .decs => true
  | .addb _ => false
  | .getc => false
  | .addc _ => false
  | .getb => false
  | .clr => false
  | .encb _ => false
  | .ence => false
  | .decc _ => false
  | .dece => false

/-- The successful end of a run (70_reset_and_hazards.md R109): TCS clear, and OUT is the run's output. -/
def Succeeded (s : State) : Prop :=
  s.mode = .idle ∧ s.done = true ∧ s.cause = .none ∧ s.acc = 0#24 ∧ s.bc = 0#2 ∧ s.cc = 0#3

/-- The failed end of a run with cause `c` (R109). -/
def FailedWith (c : Cause) (s : State) : Prop := s.mode = .fault ∧ s.done = false ∧ s.cause = c

/-- The outcome `r` of a command in `s` is fault entry with cause `c` (60_exceptions.md R91, the part it specifies): the
failed state, no response, and the instance and the host as they were. -/
def TakesFault (c : Cause) (s : State) (r : Result) : Prop :=
  ∃ t, r = .next t ∧ FailedWith c t ∧ t.rsp = none ∧ t.params = s.params ∧ t.host = s.host

/-- Outside the MODE in which it is legal, a command raises ARGERR (30_encoding.md R52 step 4). -/
def IllegalElsewhere (i : Instr) : Prop :=
  ∀ s, Admitted s → s.mode ≠ .fault → s.mode ≠ legalMode i → TakesFault .argErr s (exec i s)

/-- The words of opcode `op` whose `ARG` has one of the bits of `reserved` set raise ARGERR (30_encoding.md R52 step 3). -/
def ReservedArgFaults (op : BitVec 4) (reserved : Byte) : Prop :=
  ∀ (arg : Byte) (s : State), Admitted s → s.mode ≠ .fault → arg &&& reserved ≠ 0 →
    TakesFault .argErr s (takeWord (op ++ arg) s)

/-- The precondition that a raw command has broken, if it has (60_exceptions.md R89). -/
def ProtocolBroken : Instr → State → Prop
  | .addb _, s => s.bc = 3#2 ∨ s.cc ≠ 0#3
  | .getc, s => s.cc ≠ 0#3
  | .addc ch, s => s.cc = 4#3 ∨ s.bc ≠ 0#2 ∨ dec6 ch = none
  | .getb, s => s.bc ≠ 0#2
  | .clr, _ => False
  | .encs _ _, _ => False
  | .encb _, _ => False
  | .ence, _ => False
  | .decs, _ => False
  | .decc _, _ => False
  | .dece, _ => False

/-- `n` steps, stopping at the first fault or refusal. -/
def runFor : Nat → State → Result
  | 0, s => .next s
  | n + 1, s =>
    match step s with
    | .next t => runFor n t
    | .fault r => .fault r
    | .refused r => .refused r

/-- The run of a list of host actions, one step each, from `s` on: `s` with these actions pending, and `more` after them. -/
def runs (s : State) (actions more : List HostAction) : Result :=
  runFor actions.length { s with host := actions ++ more }

/-- 10_state.md R14 with the range of `CC` (R13): one direction; the bits of ACC below the filled byte lanes (encode path)
and below the filled symbol slots (decode path) are zero (log entry 9). -/
def TcsInv (s : State) : Prop :=
  (s.bc = 0#2 ∨ s.cc = 0#3) ∧ s.cc.toNat ≤ 4 ∧
    (s.cc = 0#3 → ∀ k, k < 24 - 8 * s.bc.toNat → s.acc.getLsbD k = false) ∧
    (s.bc = 0#2 → ∀ k, k < 24 - 6 * s.cc.toNat → s.acc.getLsbD k = false)

/-- The buffer's form (10_state.md R10, R21) and its bound (20_memory.md R41). -/
def OutInv (s : State) : Prop :=
  OutBuffer.len s.out ≤ s.out.cap ∧ (∃ k, s.out.cap = s.params.cap0 * 2 ^ k) ∧ hasRoom s 0 = true

/-- A live encode run between commands (42_encoder.md R69). -/
def EncInv (s : State) : Prop :=
  s.cc = 0#3 ∧ s.bc.toNat < 3 ∧ s.col % 4 = 0 ∧ (s.lw = false → s.col = 0) ∧ s.done = false ∧ s.padSeen = false

/-- A live decode run between commands (43_decoder.md R76). -/
def DecInv (s : State) : Prop := s.bc = 0#2 ∧ s.cc.toNat < 4 ∧ s.col = 0 ∧ s.done = false

/-- The invariant of the machine's states. Of a faulted state it says only what 60_exceptions.md R91 specifies. -/
def Inv (s : State) : Prop :=
  Admitted s ∧ (s.mode = .fault ↔ s.cause ≠ .none) ∧ (s.mode = .fault → s.done = false) ∧
    (s.mode ≠ .fault → TcsInv s ∧ OutInv s ∧ s.col ≤ s.params.width) ∧
    (s.mode = .enc → EncInv s) ∧ (s.mode = .dec → DecInv s)

end Sys2Proof.Safety
end

