-- ==== Sys2Proof/Certificates/Slice0/Obligations.lean ====
section
/-! DEFINITION. The statements for the provers. Each docstring names the rules of spec/ it formalises. -/

open Sys2Proof Sys2Proof.Machine Sys2Proof.Safety

/-! ## Encoding -/

/-- 30_encoding.md R44, R46: no bit of a command's encoding is dropped. -/
def Obligations.DecodeOfEncode : Prop := ∀ i : Instr, decode (encode i) = .command i

/-- R44, R49: every word has at most one meaning, and a legal word is the encoding of the command it decodes to. -/
def Obligations.EncodeOfDecode : Prop := ∀ (w : CmdWord) (i : Instr), decode w = .command i → encode i = w

/-- R44: a word decodes to a command exactly when it selects a row, that command's row; the rows are disjoint. -/
def Obligations.WordsSelectDisjointRows : Prop :=
  (∀ w i, decode w = .command i → selectsRow w (opcodeRow i) = true) ∧
    (∀ w i, selectsRow w (opcodeRow i) = true → ∃ j, decode w = .command j ∧ opcodeRow j = opcodeRow i) ∧
    (∀ w i j, selectsRow w (opcodeRow i) = true → selectsRow w (opcodeRow j) = true → opcodeRow i = opcodeRow j)

/-- R47: the reserved opcodes select no command and raise ARGERR (with `MODE ≠ FAULT`, R52), for all 5 x 256 words. -/
def Obligations.ReservedOpcodesRaiseArgErr : Prop :=
  (∀ op ∈ [0x0#4, 0x6#4, 0x7#4, 0xB#4, 0xF#4], ∀ arg : Byte,
    (∀ i, decode (op ++ arg) ≠ .command i) ∧
      ∀ s, Admitted s → s.mode ≠ .fault → TakesFault .argErr s (takeWord (op ++ arg) s)) ∧
    (List.range 4096).countP (fun w => [0x0#4, 0x6#4, 0x7#4, 0xB#4, 0xF#4].contains (opField (BitVec.ofNat 12 w))) = 1280

/-- R48: nonzero reserved argument bits make the word illegal and raise ARGERR; 1034 of the 4096 words are legal. -/
def Obligations.ReservedArgBitsRaiseArgErr : Prop :=
  (∀ op ∈ [0x2#4, 0x4#4, 0x5#4, 0xA#4, 0xC#4, 0xE#4], ReservedArgFaults op 0xFF#8 ∧
    ∀ arg : Byte, arg ≠ 0#8 → ∀ i, decode (op ++ arg) ≠ .command i) ∧
    ReservedArgFaults 0x8#4 0xFC#8 ∧
    (∀ arg : Byte, arg &&& 0xFC#8 ≠ 0#8 → ∀ i, decode (0x8#4 ++ arg) ≠ .command i) ∧
    (List.range 4096).countP (fun w => (decodeTableWord 12 w).isSome) = 1034

/-- Sanity, R50: the words of the spec's assembler table. -/
def Obligations.SpecWordsDecode : Prop :=
  decode 0x14D#12 = .command (.addb 0x4D#8) ∧ decode 0x200#12 = .command .getc ∧
    decode 0x354#12 = .command (.addc 0x54#8) ∧ decode 0x400#12 = .command .getb ∧ decode 0x500#12 = .command .clr ∧
    decode 0x800#12 = .command (.encs false false) ∧ decode 0x801#12 = .command (.encs true false) ∧
    decode 0x802#12 = .command (.encs false true) ∧ decode 0x803#12 = .command (.encs true true) ∧
    decode 0x961#12 = .command (.encb 0x61#8) ∧ decode 0xA00#12 = .command .ence ∧ decode 0xC00#12 = .command .decs ∧
    decode 0xD3D#12 = .command (.decc 0x3D#8) ∧ decode 0xE00#12 = .command .dece

/-- 10_state.md R27, R28: the alphabet in its listing order, and its inverse on exactly the 64 bytes of the alphabet. The
byte codes are ASCII, presumed by the spec itself (00_scope.md R8; log entry 13). -/
def Obligations.AlphabetIsBijection : Prop :=
  (List.range 64).map (fun n => enc6 (BitVec.ofNat 6 n)) =
      (List.range 26).map (fun n => BitVec.ofNat 8 (0x41 + n)) ++ (List.range 26).map (fun n => BitVec.ofNat 8 (0x61 + n)) ++
        (List.range 10).map (fun n => BitVec.ofNat 8 (0x30 + n)) ++ [0x2B#8, 0x2F#8] ∧
    (∀ v : Sym6, dec6 (enc6 v) = some v) ∧ (∀ (c : Byte) (v : Sym6), dec6 c = some v → enc6 v = c)

/-- 43_decoder.md R70: every character is in exactly one class; for a well-formed instance the order of the tests is of no
consequence. -/
def Obligations.CharacterClasses : Prop :=
  ∀ (p : Params) (c : Byte), p.wf = true →
    (classify p c = .ws ↔ isWS p c = true) ∧ (classify p c = .padCh ↔ c = 0x3D#8) ∧
      (classify p c = .bad ↔ isWS p c = false ∧ c ≠ 0x3D#8 ∧ dec6 c = none) ∧
      ∀ v, classify p c = .sym v ↔ dec6 c = some v

/-! ## The step -/

/-- A step runs the decoded command: the oldest pending action is a word that decodes to `i`, and the step is exec of `i`
on the state with that action taken off the host's list (the list is the model's own: log entry 1). -/
def Obligations.StepRunsDecodedCommand : Prop :=
  ∀ (s : State) (w : CmdWord) (rest : List HostAction) (i : Instr), s.host = .command w :: rest →
    decode w = .command i → step s = exec i { s with host := rest }

/-- 30_encoding.md R52, 60_exceptions.md R94: the order of the checks on a word, from FAULT to the command's own rule. -/
def Obligations.ChecksComeInOrder : Prop :=
  ∀ (s : State) (w : CmdWord), Admitted s →
    (s.mode = .fault → takeWord w s = .next { s with rsp := none }) ∧
      (s.mode ≠ .fault → (∀ i, decode w ≠ .command i) → TakesFault .argErr s (takeWord w s)) ∧
      (∀ i, s.mode ≠ .fault → decode w = .command i → s.mode ≠ legalMode i → TakesFault .argErr s (takeWord w s)) ∧
      (∀ i, decode w = .command i → takeWord w s = exec i s)

/-- The model's choice, log entry 10: with no action pending a step changes nothing but the response, which is not
latched (10_state.md R22). -/
def Obligations.WaitsForTheHost : Prop :=
  ∀ s : State, Admitted s → s.host = [] → step s = .next { s with rsp := none }

/-- The model's choice, log entry 1: a step takes at most one action of the host, the oldest (after 10_state.md R24), and
changes no parameter of the instance (00_scope.md R5). -/
def Obligations.StepTakesOneAction : Prop :=
  ∀ s t : State, step s = .next t → t.host = s.host.tail ∧ t.params = s.params

/-- 70_reset_and_hazards.md R101: reset, in any MODE, sets every element to the value of 10_state.md R26. -/
def Obligations.ResetSetsEveryElement : Prop :=
  ∀ (s : State) (rest : List HostAction), Admitted s → s.host = .reset :: rest →
    ∃ t, step s = .next t ∧ t.acc = 0#24 ∧ t.bc = 0#2 ∧ t.cc = 0#3 ∧ t.mode = .idle ∧ t.lw = false ∧ t.pad = false ∧
      t.col = 0 ∧ t.padSeen = false ∧ t.done = false ∧ t.cause = .none ∧ t.out.data = [] ∧
      t.out.cap = s.params.cap0 ∧ t.params = s.params ∧ t.host = rest ∧ t.rsp = none

/-- A refused instance (43_decoder.md R75; 00_scope.md R5, U14): no step and no command of it has a meaning. That every
step refuses is the model's form of it, log entry 6. -/
def Obligations.UnspecifiedInstancesRefused : Prop :=
  ∀ s : State,
    (s.params.padCheck = .strict → step s = .refused .strictPadCheck ∧ ∀ i, exec i s = .refused .strictPadCheck) ∧
      (s.params.padCheck = .lenient → s.params.wf = false →
        step s = .refused .illFormedParams ∧ ∀ i, exec i s = .refused .illFormedParams)

/-! ## Faults -/

/-- 60_exceptions.md R87: ARGERR is raised exactly for a word that is no legal encoding or whose command is not legal in
the current MODE (the illegal words themselves: R47, R48). -/
def Obligations.ArgErrExactly : Prop :=
  ∀ (w : CmdWord) (s : State), Admitted s → s.mode ≠ .fault →
    (TakesFault .argErr s (takeWord w s) ↔
      (∀ i, decode w ≠ .command i) ∨ ∃ i, decode w = .command i ∧ s.mode ≠ legalMode i)

/-- 60_exceptions.md R89: PROTOCOL is raised exactly by a raw command in IDLE whose precondition on TCS does not hold. -/
def Obligations.ProtocolExactly : Prop :=
  ∀ (i : Instr) (s : State), Admitted s → s.mode ≠ .fault →
    (TakesFault .protocol s (exec i s) ↔ s.mode = .idle ∧ ProtocolBroken i s)

/-- 60_exceptions.md R88: INVALID_INPUT is raised exactly by a DECC, in DEC, of a character that is not whitespace and
not `=`, and is outside the alphabet or comes after a `=`. -/
def Obligations.InvalidInputExactly : Prop :=
  ∀ (i : Instr) (s : State), Admitted s → s.mode ≠ .fault →
    (TakesFault .invalidInput s (exec i s) ↔
      s.mode = .dec ∧ ∃ ch, i = .decc ch ∧ isWS s.params ch = false ∧ ch ≠ 0x3D#8 ∧ (dec6 ch = none ∨ s.padSeen = true))

/-- 60_exceptions.md R91: whatever command faults, CAUSE, MODE and DONE are as fault entry sets them and no response is
produced; the instance and the host's list are as before. (R91 leaves every other element unspecified.) -/
def Obligations.FaultEntrySetsStatus : Prop :=
  ∀ (i : Instr) (s t : State), s.mode ≠ .fault → exec i s = .next t → t.mode = .fault →
    t.done = false ∧ t.cause ≠ .none ∧ t.rsp = none ∧ t.params = s.params ∧ t.host = s.host

/-- 60_exceptions.md R92: in FAULT every word is ignored; nothing changes and no response is produced. -/
def Obligations.FaultAbsorbsEveryWord : Prop :=
  ∀ (s : State) (w : CmdWord) (rest : List HostAction), Admitted s → s.mode = .fault → s.host = .command w :: rest →
    step s = .next { s with host := rest, rsp := none }

/-- 60_exceptions.md R93: the only way out of FAULT is reset, and the cause is kept until then (10_state.md R20). -/
def Obligations.FaultLeftOnlyByReset : Prop :=
  ∀ s t : State, s.mode = .fault → step s = .next t →
    (∃ rest, s.host = .reset :: rest ∧ t.mode = .idle ∧ t.cause = .none) ∨ (t.mode = .fault ∧ t.cause = s.cause)

/-! ## Invariants and completion -/

/-- The reset state meets the invariant (10_state.md R14, R26). -/
def Obligations.ResetMeetsInv : Prop := Inv State.reset

/-- Every step keeps the invariant: TCS (10_state.md R14), the buffer (R21), COL (R17), the live runs (42_encoder.md R69,
43_decoder.md R76), CAUSE and DONE in FAULT (60_exceptions.md R91). -/
def Obligations.StepKeepsInv : Prop := ∀ s t : State, Inv s → step s = .next t → Inv t

/-- 70_reset_and_hazards.md R108: every command completes. From every state of the invariant, with OUT unbounded, every
step answers a next state: no micro-operation is called outside its precondition (40_core_encode.md R56). -/
def Obligations.EveryStepCompletes : Prop :=
  ∀ s : State, Inv s → s.params.maxOut = none → ∃ t, step s = .next t

/-- With a finite MAXOUT the only other outcome is the refusal of 20_memory.md R41. -/
def Obligations.OnlyExhaustionStops : Prop :=
  ∀ s : State, Inv s → (∃ t, step s = .next t) ∨ step s = .refused .outExhausted

/-! ## The raw commands -/

/-- 40_core_encode.md R58, R55. -/
def Obligations.ClrClearsTcs : Prop :=
  decode 0x500#12 = .command .clr ∧ IllegalElsewhere .clr ∧ ReservedArgFaults 0x5#4 0xFF#8 ∧
    ∀ s : State, Admitted s → s.mode = .idle →
      exec .clr s = .next { s with acc := 0#24, bc := 0#2, cc := 0#3, rsp := some [] }

/-- 40_core_encode.md R59, R56: byte lane BC of ACC holds `b`, the other 16 bits keep their value, BC goes up by one. The
place of the lane is the spec's inference: "the position follows from the packing equations of rule R57" (R56). -/
def Obligations.AddbFillsNextByteLane : Prop :=
  ∀ b : Byte, decode (0x1#4 ++ b) = .command (.addb b) ∧ IllegalElsewhere (.addb b) ∧
    ∀ s : State, Admitted s → s.mode = .idle →
      (s.bc = 3#2 ∨ s.cc ≠ 0#3 → TakesFault .protocol s (exec (.addb b) s)) ∧
      (s.bc ≠ 3#2 → s.cc = 0#3 → ∃ acc bc,
        exec (.addb b) s = .next { s with acc := acc, bc := bc, rsp := some [] } ∧ bc.toNat = s.bc.toNat + 1 ∧
          acc.extractLsb' (16 - 8 * s.bc.toNat) 8 = b ∧
          ∀ k, k < 24 → (k < 16 - 8 * s.bc.toNat ∨ 24 - 8 * s.bc.toNat ≤ k) → acc.getLsbD k = s.acc.getLsbD k)

/-- 40_core_encode.md R60, R57. -/
def Obligations.GetcDrainsSymbols : Prop :=
  decode 0x200#12 = .command .getc ∧ IllegalElsewhere .getc ∧ ReservedArgFaults 0x2#4 0xFF#8 ∧
    ∀ s : State, Admitted s → s.mode = .idle →
      (s.cc ≠ 0#3 → TakesFault .protocol s (exec .getc s)) ∧
      (s.cc = 0#3 → ∃ r, exec .getc s = .next { s with acc := 0#24, bc := 0#2, cc := 0#3, rsp := some r } ∧
        (s.bc = 0#2 → r = []) ∧
        (s.bc = 1#2 → r = [enc6 (s.acc.extractLsb 23 18), enc6 (s.acc.extractLsb 17 12)]) ∧
        (s.bc = 2#2 → r = [enc6 (s.acc.extractLsb 23 18), enc6 (s.acc.extractLsb 17 12), enc6 (s.acc.extractLsb 11 6)]) ∧
        (s.bc = 3#2 → r = [enc6 (s.acc.extractLsb 23 18), enc6 (s.acc.extractLsb 17 12), enc6 (s.acc.extractLsb 11 6),
          enc6 (s.acc.extractLsb 5 0)]))

/-- 41_core_decode.md R63, R61: slot CC of ACC holds the character's value, the other 18 bits keep theirs, CC goes up by
one. (`CC` above 4 never occurs: 10_state.md R13.) -/
def Obligations.AddcFillsNextSlot : Prop :=
  ∀ ch : Byte, decode (0x3#4 ++ ch) = .command (.addc ch) ∧ IllegalElsewhere (.addc ch) ∧
    ∀ s : State, Admitted s → s.mode = .idle →
      (s.cc = 4#3 ∨ s.bc ≠ 0#2 ∨ dec6 ch = none → TakesFault .protocol s (exec (.addc ch) s)) ∧
      (∀ v, s.cc.toNat < 4 → s.bc = 0#2 → dec6 ch = some v → ∃ acc cc,
        exec (.addc ch) s = .next { s with acc := acc, cc := cc, rsp := some [] } ∧ cc.toNat = s.cc.toNat + 1 ∧
          acc.extractLsb' (18 - 6 * s.cc.toNat) 6 = v ∧
          ∀ k, k < 24 → (k < 18 - 6 * s.cc.toNat ∨ 24 - 6 * s.cc.toNat ≤ k) → acc.getLsbD k = s.acc.getLsbD k)

/-- 41_core_decode.md R64, R62. (`CC` above 4 never occurs: 10_state.md R13.) -/
def Obligations.GetbDrainsBytes : Prop :=
  decode 0x400#12 = .command .getb ∧ IllegalElsewhere .getb ∧ ReservedArgFaults 0x4#4 0xFF#8 ∧
    ∀ s : State, Admitted s → s.mode = .idle →
      (s.bc ≠ 0#2 → TakesFault .protocol s (exec .getb s)) ∧
      (s.bc = 0#2 → s.cc.toNat ≤ 4 → ∃ r,
        exec .getb s = .next { s with acc := 0#24, bc := 0#2, cc := 0#3, rsp := some r } ∧
        (s.cc = 0#3 → r = []) ∧ (s.cc = 1#3 → r = []) ∧
        (s.cc = 2#3 → r = [s.acc.extractLsb 23 16]) ∧
        (s.cc = 3#3 → r = [s.acc.extractLsb 23 16, s.acc.extractLsb 15 8]) ∧
        (s.cc = 4#3 → r = [s.acc.extractLsb 23 16, s.acc.extractLsb 15 8, s.acc.extractLsb 7 0]))

/-- 40_core_encode.md R54: a raw command that does not fault touches only TCS and the response. -/
def Obligations.RawCommandsTouchOnlyTcs : Prop :=
  ∀ (i : Instr) (s t : State), isRaw i = true → exec i s = .next t → t.mode ≠ .fault →
    t = { s with acc := t.acc, bc := t.bc, cc := t.cc, rsp := t.rsp }

/-- 20_memory.md R33: the bytes of a full group and its symbols' values are the same 24 bits, most significant first, in
both directions. -/
def Obligations.RepackingIsMsbFirst : Prop :=
  ∀ (s : State) (more : List HostAction), Inv s → s.mode = .idle →
    (∀ b0 b1 b2 : Byte, ∃ t v0 v1 v2 v3,
      runs s [issue .clr, issue (.addb b0), issue (.addb b1), issue (.addb b2), issue .getc] more = .next t ∧
        t.rsp = some [enc6 v0, enc6 v1, enc6 v2, enc6 v3] ∧ b0 ++ (b1 ++ b2) = v0 ++ (v1 ++ (v2 ++ v3))) ∧
    (∀ v0 v1 v2 v3 : Sym6, ∃ t b0 b1 b2,
      runs s [issue .clr, issue (.addc (enc6 v0)), issue (.addc (enc6 v1)), issue (.addc (enc6 v2)),
          issue (.addc (enc6 v3)), issue .getb] more = .next t ∧
        t.rsp = some [b0, b1, b2] ∧ b0 ++ (b1 ++ b2) = v0 ++ (v1 ++ (v2 ++ v3)))

/-! ## The encoder sequencer -/

/-- 42_encoder.md R66; PAD is the complement of the option bit `np`. -/
def Obligations.EncsStartsEncodeRun : Prop :=
  ReservedArgFaults 0x8#4 0xFC#8 ∧
    ∀ lw np : Bool, decode (0x8#4 ++ (0#6 ++ (BitVec.ofBool np ++ BitVec.ofBool lw))) = .command (.encs lw np) ∧
      IllegalElsewhere (.encs lw np) ∧
      ∀ s : State, Admitted s → s.mode = .idle →
        exec (.encs lw np) s = .next { s with
          acc := 0#24, bc := 0#2, cc := 0#3, lw := lw, pad := !np, col := 0, padSeen := false,
          out := { data := [], cap := s.params.cap0 }, done := false, mode := .enc, rsp := some [] }

/-- 42_encoder.md R67 with R65: the first and second byte of a group only fill their lane; the third drains the group to
OUT, after an LF when the line is full, and COL counts its characters when LW = 1. (The place of the lane: as at
AddbFillsNextByteLane.) -/
def Obligations.EncbEncodesOneByte : Prop :=
  ∀ b : Byte, decode (0x9#4 ++ b) = .command (.encb b) ∧ IllegalElsewhere (.encb b) ∧
    ∀ s : State, Admitted s → s.mode = .enc → s.cc = 0#3 →
      (s.bc.toNat < 2 → ∃ acc bc,
        exec (.encb b) s = .next { s with acc := acc, bc := bc, rsp := some [] } ∧ bc.toNat = s.bc.toNat + 1 ∧
          acc.extractLsb' (16 - 8 * s.bc.toNat) 8 = b ∧
          ∀ k, k < 24 → (k < 16 - 8 * s.bc.toNat ∨ 24 - 8 * s.bc.toNat ≤ k) → acc.getLsbD k = s.acc.getLsbD k) ∧
      (s.bc = 2#2 → ∀ brk, brk = (if s.lw = true ∧ s.col = s.params.width then [0x0A#8] else []) →
        hasRoom s (brk.length + 4) = true → ∃ t, exec (.encb b) s = .next t ∧
          t = { s with acc := 0#24, bc := 0#2, cc := 0#3, col := t.col, out := t.out, rsp := some [] } ∧
          t.out.data = s.out.data ++ brk ++ groupOf3 (s.acc.extractLsb 23 16) (s.acc.extractLsb 15 8) b ∧
          t.col = if s.lw then (if s.col = s.params.width then 4 else s.col + 4) else s.col)

/-- 42_encoder.md R68 with R65: the flush of 0, 1 or 2 leftover bytes with its padding, then exactly one LF; TCS clear,
DONE = 1, MODE = IDLE. (`BC = 3` never occurs in a run: R69.) -/
def Obligations.EnceEndsEncodeRun : Prop :=
  decode 0xA00#12 = .command .ence ∧ IllegalElsewhere .ence ∧ ReservedArgFaults 0xA#4 0xFF#8 ∧
    ∀ s : State, Admitted s → s.mode = .enc → s.cc = 0#3 →
      (s.bc = 0#2 → hasRoom s 1 = true → ∃ t, exec .ence s = .next t ∧
        t = { s with out := t.out, done := true, mode := .idle, rsp := some [] } ∧ t.out.data = s.out.data ++ [0x0A#8]) ∧
      ∀ brk, brk = (if s.lw = true ∧ s.col = s.params.width then [0x0A#8] else []) →
      ∀ g, (s.bc = 1#2 ∧ g = groupOf1 (s.acc.extractLsb 23 16) ++ (if s.pad then [0x3D#8, 0x3D#8] else [])) ∨
          (s.bc = 2#2 ∧
            g = groupOf2 (s.acc.extractLsb 23 16) (s.acc.extractLsb 15 8) ++ (if s.pad then [0x3D#8] else [])) →
        s.acc.extractLsb 7 0 = 0#8 → (s.bc = 1#2 → s.acc.extractLsb 15 8 = 0#8) →
        hasRoom s (brk.length + g.length + 1) = true → ∃ t, exec .ence s = .next t ∧
          t = { s with
            acc := 0#24, bc := 0#2, cc := 0#3, col := t.col, out := t.out, done := true, mode := .idle, rsp := some [] } ∧
          t.out.data = s.out.data ++ brk ++ g ++ [0x0A#8] ∧
          t.col = if s.lw then (if s.col = s.params.width then g.length else s.col + g.length) else s.col

/-! ## The decoder sequencer -/

/-- 43_decoder.md R72: LW and PAD keep their values. -/
def Obligations.DecsStartsDecodeRun : Prop :=
  decode 0xC00#12 = .command .decs ∧ IllegalElsewhere .decs ∧ ReservedArgFaults 0xC#4 0xFF#8 ∧
    ∀ s : State, Admitted s → s.mode = .idle →
      exec .decs s = .next { s with
        acc := 0#24, bc := 0#2, cc := 0#3, padSeen := false, col := 0,
        out := { data := [], cap := s.params.cap0 }, done := false, mode := .dec, rsp := some [] }

/-- 43_decoder.md R73, R70: whitespace changes nothing; `=` sets PADSEEN; a character outside the alphabet, or any other
after a `=`, faults; an alphabet character fills its slot, and the fourth drains 3 bytes to OUT. -/
def Obligations.DeccDecodesOneCharacter : Prop :=
  ∀ ch : Byte, decode (0xD#4 ++ ch) = .command (.decc ch) ∧ IllegalElsewhere (.decc ch) ∧
    ∀ s : State, Admitted s → s.mode = .dec →
      (isWS s.params ch = true → exec (.decc ch) s = .next { s with rsp := some [] }) ∧
      (ch = 0x3D#8 → exec (.decc ch) s = .next { s with padSeen := true, rsp := some [] }) ∧
      (isWS s.params ch = false → ch ≠ 0x3D#8 → s.padSeen = true ∨ dec6 ch = none →
        TakesFault .invalidInput s (exec (.decc ch) s)) ∧
      ∀ v, dec6 ch = some v → s.padSeen = false → s.bc = 0#2 →
        (s.cc.toNat < 3 → ∃ acc cc,
          exec (.decc ch) s = .next { s with acc := acc, cc := cc, rsp := some [] } ∧ cc.toNat = s.cc.toNat + 1 ∧
            acc.extractLsb' (18 - 6 * s.cc.toNat) 6 = v ∧
            ∀ k, k < 24 → (k < 18 - 6 * s.cc.toNat ∨ 24 - 6 * s.cc.toNat ≤ k) → acc.getLsbD k = s.acc.getLsbD k) ∧
        (s.cc = 3#3 → hasRoom s 3 = true → ∃ t, exec (.decc ch) s = .next t ∧
          t = { s with acc := 0#24, bc := 0#2, cc := 0#3, out := t.out, rsp := some [] } ∧
          t.out.data = s.out.data ++ [s.acc.extractLsb 23 16, s.acc.extractLsb 15 8, s.acc.extractLsb 7 6 ++ v])

/-- 43_decoder.md R74, R62: the flush of a trailing partial group; TCS clear, DONE = 1, MODE = IDLE, PADSEEN kept. -/
def Obligations.DeceEndsDecodeRun : Prop :=
  decode 0xE00#12 = .command .dece ∧ IllegalElsewhere .dece ∧ ReservedArgFaults 0xE#4 0xFF#8 ∧
    ∀ s : State, Admitted s → s.mode = .dec → s.bc = 0#2 →
      ∀ g, (s.cc = 0#3 ∧ g = []) ∨ (s.cc = 1#3 ∧ g = []) ∨ (s.cc = 2#3 ∧ g = [s.acc.extractLsb 23 16]) ∨
          (s.cc = 3#3 ∧ g = [s.acc.extractLsb 23 16, s.acc.extractLsb 15 8]) →
        hasRoom s g.length = true → ∃ t, exec .dece s = .next t ∧
          t = { s with
            acc := 0#24, bc := 0#2, cc := 0#3, out := t.out, done := true, mode := .idle, rsp := some [] } ∧
          t.out.data = s.out.data ++ g

/-! ## Frames and status -/

/-- The frame of the sequencer commands that do not fault (42_encoder.md R66 to R68, 43_decoder.md R72 to R74, their lines
"Flags written" and "State written"): CAUSE, the parameters, the host's list and the model's draws never change; LW and
PAD change only with ENCS; PADSEEN only with ENCS, DECS and DECC; COL not with DECC and DECE; DONE and MODE not with ENCB
and DECC. -/
def Obligations.SequencerFrame : Prop :=
  ∀ (i : Instr) (s t : State), isRaw i = false → exec i s = .next t → t.mode ≠ .fault →
    t.cause = s.cause ∧ t.params = s.params ∧ t.host = s.host ∧ t.draws = s.draws ∧
      ((∀ lw np, i ≠ .encs lw np) → t.lw = s.lw ∧ t.pad = s.pad) ∧
      (startsRun i = false → (∀ ch, i ≠ .decc ch) → t.padSeen = s.padSeen) ∧
      (legalMode i = .dec → t.col = s.col) ∧
      ((∃ b, i = .encb b) ∨ (∃ ch, i = .decc ch) → t.done = s.done ∧ t.mode = s.mode)

/-- 20_memory.md R31: no command that does not fault rewrites, reorders or removes a byte of OUT; only ENCS and DECS
replace it, by an empty buffer. -/
def Obligations.OutOnlyGrows : Prop :=
  ∀ (i : Instr) (s t : State), exec i s = .next t → s.mode ≠ .fault → t.mode ≠ .fault →
    (startsRun i = false → ∀ k, k < OutBuffer.len s.out → OutBuffer.read t.out k = OutBuffer.read s.out k) ∧
      (startsRun i = false → OutBuffer.len s.out ≤ OutBuffer.len t.out) ∧
      (startsRun i = true → OutBuffer.len t.out = 0)

/-- 20_memory.md R30: OutAppend adds the byte at the end, doubles the capacity when full, and keeps length ≤ capacity. -/
def Obligations.OutAppendAddsOneByte : Prop :=
  ∀ (b : Byte) (s : State) (k : State → Result), s.params.maxOut = none →
    ∃ o, outAppend b s k = k { s with out := o } ∧ OutBuffer.len o = OutBuffer.len s.out + 1 ∧
      OutBuffer.read o (OutBuffer.len o - 1) = some b ∧
      (∀ j, j < OutBuffer.len s.out → OutBuffer.read o j = OutBuffer.read s.out j) ∧
      o.cap = (if OutBuffer.len s.out = s.out.cap then 2 * s.out.cap else s.out.cap) ∧
      (1 ≤ s.out.cap → OutBuffer.len s.out ≤ s.out.cap → OutBuffer.len o ≤ o.cap)

/-- 20_memory.md R41: with a finite MAXOUT, a command whose appends would pass it is refused, and not a byte is dropped. -/
def Obligations.ExhaustedOutputRefused : Prop :=
  ∀ s : State, Inv s →
    (∀ b, s.mode = .enc → s.bc = 2#2 →
      hasRoom s (if s.lw = true ∧ s.col = s.params.width then 5 else 4) = false →
        exec (.encb b) s = .refused .outExhausted) ∧
    (∀ n, n = (if s.bc = 0#2 then 0 else
          (if s.lw = true ∧ s.col = s.params.width then 1 else 0) + if s.pad then 4 else s.bc.toNat + 1) →
      s.mode = .enc → hasRoom s (n + 1) = false → exec .ence s = .refused .outExhausted) ∧
    (∀ ch, s.mode = .dec → s.cc = 3#3 → s.padSeen = false → dec6 ch ≠ none → hasRoom s 3 = false →
      exec (.decc ch) s = .refused .outExhausted) ∧
    (s.mode = .dec → 2 ≤ s.cc.toNat → hasRoom s (s.cc.toNat - 1) = false → exec .dece s = .refused .outExhausted)

/-- 20_memory.md R36 with 30_encoding.md R53: bytes on RSP and bytes appended to OUT, per command that does not fault. -/
def Obligations.BytesPerCommand : Prop :=
  ∀ (i : Instr) (s t : State), exec i s = .next t → s.mode ≠ .fault → t.mode ≠ .fault →
    ∃ r n, t.rsp = some r ∧ (startsRun i = true → OutBuffer.len t.out = 0) ∧
      (startsRun i = false → OutBuffer.len t.out = OutBuffer.len s.out + n) ∧
      match i with
      | .addb _ => r = [] ∧ n = 0
      | .getc => responseCount r ∈ [0, 2, 3, 4] ∧ n = 0
      | .addc _ => r = [] ∧ n = 0
      | .getb => responseCount r ∈ [0, 1, 2, 3] ∧ n = 0
      | .clr => r = [] ∧ n = 0
      | .encs _ _ => r = []
      | .encb _ => r = [] ∧ n ∈ [0, 4, 5]
      | .ence => r = [] ∧ n ∈ [1, 3, 4, 5, 6]
      | .decs => r = []
      | .decc _ => r = [] ∧ n ∈ [0, 3]
      | .dece => r = [] ∧ n ∈ [0, 1, 2, 3]

/-- 10_state.md R15: what enters and leaves each MODE. -/
def Obligations.ModeTransitions : Prop :=
  (∀ (i : Instr) (s t : State), exec i s = .next t → s.mode ≠ .fault → t.mode ≠ .fault →
    s.mode = legalMode i ∧
      match i with
      | .encs _ _ => t.mode = .enc
      | .decs => t.mode = .dec
      | .ence => t.mode = .idle
      | .dece => t.mode = .idle
      | .encb _ => t.mode = .enc
      | .decc _ => t.mode = .dec
      | .addb _ => t.mode = .idle
      | .getc => t.mode = .idle
      | .addc _ => t.mode = .idle
      | .getb => t.mode = .idle
      | .clr => t.mode = .idle) ∧
    (∀ (i : Instr) (s t : State), exec i s = .next t → s.mode = .fault → t.mode = .fault) ∧
    ∀ (s : State) (rest : List HostAction), Admitted s → s.host = .reset :: rest → ∃ t, step s = .next t ∧ t.mode = .idle

/-- 10_state.md R19: what sets and clears DONE. -/
def Obligations.DoneTransitions : Prop :=
  (∀ (i : Instr) (s t : State), exec i s = .next t → s.mode ≠ .fault →
    (t.mode = .fault → t.done = false) ∧
      (t.mode ≠ .fault →
        match i with
        | .ence => t.done = true
        | .dece => t.done = true
        | .encs _ _ => t.done = false
        | .decs => t.done = false
        | .addb _ => t.done = s.done
        | .getc => t.done = s.done
        | .addc _ => t.done = s.done
        | .getb => t.done = s.done
        | .clr => t.done = s.done
        | .encb _ => t.done = s.done
        | .decc _ => t.done = s.done)) ∧
    ∀ (s : State) (rest : List HostAction), Admitted s → s.host = .reset :: rest → ∃ t, step s = .next t ∧ t.done = false

/-- 10_state.md R23 with the codes of R15 and 60_exceptions.md R86: the fields of the status view, its reserved bits, and
its values at reset. In FAULT only MODE, DONE and CAUSE have specified values. -/
def Obligations.StatusViewFields : Prop :=
  (∀ n, n < 4 → viewRead State.reset n = some 0) ∧
    ∀ s : State,
      ((statusView s).extractLsb 1 0 =
          (match s.mode with | .idle => 0#2 | .enc => 1#2 | .dec => 2#2 | .fault => 3#2) ∧
        (statusView s).getLsbD 2 = s.done ∧
        (causeView s).extractLsb 1 0 =
          (match s.cause with | .none => 0#2 | .argErr => 1#2 | .invalidInput => 2#2 | .protocol => 3#2)) ∧
      (s.mode ≠ .fault →
        ((cfgView s).getLsbD 0 = s.lw ∧ (cfgView s).getLsbD 1 = s.pad ∧ (cfgView s).extractLsb 7 2 = 0#6) ∧
        ((statusView s).getLsbD 3 = s.padSeen ∧ (statusView s).extractLsb 5 4 = s.bc ∧
          (statusView s).extractLsb 8 6 = s.cc ∧ (statusView s).extractLsb 15 9 = 0#7) ∧
        (causeView s).extractLsb 7 2 = 0#6 ∧ viewRead s 3 = some s.out.data.length) ∧
      viewRead s 0 = some (cfgView s).toNat ∧ viewRead s 1 = some (statusView s).toNat ∧
      viewRead s 2 = some (causeView s).toNat ∧ ∀ n, 4 ≤ n → viewRead s n = none

/-- 70_reset_and_hazards.md R109: a live run ends in exactly one of two ways. -/
def Obligations.RunsEndInTwoWays : Prop :=
  ∀ (i : Instr) (s t : State), Inv s → s.mode = .enc ∨ s.mode = .dec → exec i s = .next t →
    (t.mode = .idle → Succeeded t ∧ (i = .ence ∨ i = .dece)) ∧
      (t.mode = .fault → t.done = false ∧ t.cause ≠ .none) ∧
      (t.mode ≠ .idle → t.mode ≠ .fault → t.mode = s.mode ∧ t.done = false)

/-! ## Whole runs -/

/-- 42_encoder.md R69 (derived there from R65 to R67): the state of a live encode run after the bytes `bs`, for every
input. -/
def Obligations.EncodeRunState : Prop :=
  ∀ (s : State) (lw np : Bool) (bs : List Byte) (more : List HostAction), Inv s → s.mode = .idle → s.params.maxOut = none →
    ∃ t, runs s (encodePrefix lw np bs) more = .next t ∧ t.mode = .enc ∧ t.lw = lw ∧ t.pad = !np ∧
      t.cc = 0#3 ∧ t.bc.toNat = bs.length % 3 ∧ t.acc = packBytes (bs.drop (3 * (bs.length / 3))) ∧
      t.out.data = onLines s.params.width lw (fullGroups bs) ∧
      t.col = (if lw = false ∨ bs.length / 3 = 0 then 0 else (4 * (bs.length / 3) - 1) % s.params.width + 1) ∧
      t.done = false ∧ t.padSeen = false ∧ t.cause = .none ∧ t.params = s.params ∧ t.host = more

/-- 44_whole_run.md R77 (derived there from 42_encoder.md R65 to R68): the whole encode run, of `k + 2` commands, for every
input, both options and every WIDTH. -/
def Obligations.EncodeRunOutput : Prop :=
  ∀ (s : State) (lw np : Bool) (bs : List Byte) (more : List HostAction), Inv s → s.mode = .idle → s.params.maxOut = none →
    (encodeProgram lw np bs).length = bs.length + 2 ∧
      ∃ t, runs s (encodeProgram lw np bs) more = .next t ∧ Succeeded t ∧ t.params = s.params ∧ t.host = more ∧
        t.out.data = encodeText s.params.width lw np bs

/-- 43_decoder.md R76 (derived there from R72 and R73): the state of a live decode run after the characters `cs`, for every
text none of whose characters faults. -/
def Obligations.DecodeRunState : Prop :=
  ∀ (s : State) (cs : List Byte) (more : List HostAction), Inv s → s.mode = .idle → s.params.maxOut = none →
    acceptable (withoutWs s.params cs) = true → ∀ vs, vs = symbolsOf s.params cs →
    ∃ t, runs s (decodePrefix cs) more = .next t ∧ t.mode = .dec ∧ t.bc = 0#2 ∧ t.cc.toNat = vs.length % 4 ∧
      t.acc = packSyms (vs.drop (4 * (vs.length / 4))) ∧
      t.out.data = wholeBytes ((vs.take (4 * (vs.length / 4))).flatMap bitsOf) ∧
      t.out.data.length = 3 * (vs.length / 4) ∧ (t.padSeen = true ↔ 0x3D#8 ∈ cs) ∧
      t.done = false ∧ t.cause = .none ∧ t.col = 0 ∧ t.params = s.params ∧ t.host = more

/-- 44_whole_run.md R78 (derived there from 43_decoder.md R72 to R75): the whole decode run, for every text: the recovered
bytes, or INVALID_INPUT. -/
def Obligations.DecodeRunOutcome : Prop :=
  ∀ (s : State) (cs : List Byte) (more : List HostAction), Inv s → s.mode = .idle → s.params.maxOut = none →
    ∃ t, runs s (decodeProgram cs) more = .next t ∧ t.params = s.params ∧ t.host = more ∧
      match decodeText s.params cs with
      | some d => Succeeded t ∧ t.out.data = d
      | none => FailedWith .invalidInput t

/-- 44_whole_run.md R79, R80: decoding an encoded byte sequence gives it back, with and without padding, with and without
line wrap, for every legal WIDTH and every legal isWS. -/
def Obligations.RoundTrip : Prop :=
  ∀ (s : State) (lw np : Bool) (bs : List Byte), Inv s → s.mode = .idle → s.params.maxOut = none →
    ∃ t u, runs s (encodeProgram lw np bs) [] = .next t ∧ Succeeded t ∧
      runs t (decodeProgram t.out.data) [] = .next u ∧ Succeeded u ∧ u.out.data = bs

/-- 44_whole_run.md R84: a decode run fails exactly when the text holds a character that is not whitespace, `=` or in the
alphabet, or a character that is not whitespace or `=` after the first `=`. -/
def Obligations.DecodeFailsExactly : Prop :=
  ∀ (s t : State) (cs : List Byte), Inv s → s.mode = .idle → s.params.maxOut = none →
    runs s (decodeProgram cs) [] = .next t →
    (FailedWith .invalidInput t ↔
      (∃ c ∈ cs, isWS s.params c = false ∧ c ≠ 0x3D#8 ∧ dec6 c = none) ∨
        ∃ before after c, cs = before ++ 0x3D#8 :: after ∧ c ∈ after ∧ isWS s.params c = false ∧ c ≠ 0x3D#8) ∧
      (Succeeded t ∨ FailedWith .invalidInput t)

/-- 44_whole_run.md R82: every byte of an encode run's output is LF, `=` or in the alphabet; without padding no `=`. -/
def Obligations.OutputAlphabet : Prop :=
  ∀ (s t : State) (lw np : Bool) (bs : List Byte), Inv s → s.mode = .idle → s.params.maxOut = none →
    runs s (encodeProgram lw np bs) [] = .next t →
    ∀ c ∈ t.out.data, (c = 0x0A#8 ∨ c = 0x3D#8 ∨ dec6 c ≠ none) ∧ (np = true → c ≠ 0x3D#8)

/-- 44_whole_run.md R83: the output is alphabet characters and at most two `=` after them, with LFs where `wrap` puts them,
and exactly one trailing LF; with padding the characters come to a multiple of 4. -/
def Obligations.OutputFormat : Prop :=
  ∀ (s t : State) (lw np : Bool) (bs : List Byte), Inv s → s.mode = .idle → s.params.maxOut = none →
    runs s (encodeProgram lw np bs) [] = .next t →
    ∃ body, t.out.data = body ++ [0x0A#8] ∧ body.getLast? ≠ some 0x0A#8 ∧ (lw = false → 0x0A#8 ∉ body) ∧
      ∃ syms p, body = onLines s.params.width lw (syms ++ List.replicate p 0x3D#8) ∧ p ≤ 2 ∧
        (∀ c ∈ syms, dec6 c ≠ none) ∧ (np = false → (syms.length + p) % 4 = 0) ∧ (np = true → p = 0)

/-- 44_whole_run.md R81: the numbers of symbols and of `=` in an encode run's output. -/
def Obligations.GroupSizing : Prop :=
  ∀ (s t : State) (lw np : Bool) (bs : List Byte), Inv s → s.mode = .idle → s.params.maxOut = none →
    runs s (encodeProgram lw np bs) [] = .next t →
    t.out.data.countP (fun c => (dec6 c).isSome) = 4 * (bs.length / 3) + [0, 2, 3].getD (bs.length % 3) 0 ∧
      t.out.data.countP (fun c => c == 0x3D#8) = (if np then 0 else [0, 2, 1].getD (bs.length % 3) 0) ∧
      (np = false → t.out.data.countP (fun c => (dec6 c).isSome || c == 0x3D#8) = 4 * ((bs.length + 2) / 3))

/-- 44_whole_run.md R85 (derived there from R77): the length of an encode run's output. -/
def Obligations.OutputLengths : Prop :=
  ∀ (s t : State) (lw np : Bool) (bs : List Byte), Inv s → s.mode = .idle → s.params.maxOut = none →
    runs s (encodeProgram lw np bs) [] = .next t →
    ∀ c, c = (if np then 4 * (bs.length / 3) + [0, 2, 3].getD (bs.length % 3) 0 else 4 * ((bs.length + 2) / 3)) →
      t.out.data.length = c + 1 + (if lw = false ∨ c = 0 then 0 else (c - 1) / s.params.width)

/-- 44_whole_run.md R85 (derived there from R78): the number of bytes an accepted text of `m` symbols decodes to. -/
def Obligations.DecodedLength : Prop :=
  ∀ (s t : State) (cs : List Byte), Inv s → s.mode = .idle → s.params.maxOut = none →
    runs s (decodeProgram cs) [] = .next t → t.done = true →
    ∀ m, m = cs.countP (fun c => (dec6 c).isSome) →
      t.out.data.length = 3 * (m / 4) + [0, 0, 1, 2].getD (m % 4) 0
end

