-- ==== Sys2Proof/Laws/Operands.lean ====
section
/-! SUPPORT. The alphabet's bijection laws (10_state.md R28) and the bits of the accumulator's fields. -/

namespace Sys2Proof.Machine

/-- R28: `dec6(enc6(v)) = v`. -/
@[simp] theorem dec6_enc6 (v : Sym6) : dec6 (enc6 v) = some v := by
  revert v; decide

/-- R28: `dec6(c) = v` implies `enc6(v) = c`. -/
theorem enc6_of_dec6 : ∀ (c : Byte) (v : Sym6), dec6 c = some v → enc6 v = c := by
  have h : ∀ c : Byte, (dec6 c).all (fun v => enc6 v == c) = true := by decide
  intro c v hv
  simpa [hv] using h c

/-- R28: `=` is not in the alphabet. -/
@[simp] theorem dec6_padChar : dec6 padChar = none := by decide

/-- R28: the line break is not in the alphabet. -/
@[simp] theorem dec6_lf : dec6 lf = none := by decide

theorem enc6_ne_padChar (v : Sym6) : enc6 v ≠ padChar := fun h => by
  have := dec6_enc6 v
  simp [h] at this

theorem enc6_ne_lf (v : Sym6) : enc6 v ≠ lf := fun h => by
  have := dec6_enc6 v
  simp [h] at this

theorem lf_ne_padChar : lf ≠ padChar := by decide

/-- A written field holds the value; every other bit is as it was (00_scope.md R7). -/
theorem writeField_getLsbD {n : Nat} (acc : Acc24) (lo : Nat) (v : BitVec n) (k : Nat) (hk : k < 24) :
    (writeField acc lo v).getLsbD k = if lo ≤ k ∧ k < lo + n then v.getLsbD (k - lo) else acc.getLsbD k := by
  unfold writeField
  simp only [BitVec.getLsbD_or, BitVec.getLsbD_and, BitVec.getLsbD_not, BitVec.getLsbD_shiftLeft,
    BitVec.getLsbD_setWidth, BitVec.getLsbD_allOnes, hk, decide_true, Bool.true_and]
  by_cases h1 : k < lo
  · have : ¬lo ≤ k := by omega
    simp [h1, this]
  · have hlo : lo ≤ k := by omega
    have h24 : k - lo < 24 := by omega
    by_cases h2 : k < lo + n
    · have : k - lo < n := by omega
      simp [h1, hlo, h2, h24, this]
    · have : ¬k - lo < n := by omega
      simp [h1, h2, this, BitVec.getLsbD_of_ge v (k - lo) (by omega)]

/-- The field just written reads as the value. -/
theorem extract_writeField {n : Nat} (acc : Acc24) (lo : Nat) (v : BitVec n) (h : lo + n ≤ 24) :
    (writeField acc lo v).extractLsb' lo n = v := by
  ext k hk
  have h24 : lo + k < 24 := by omega
  rw [BitVec.getElem_extractLsb', writeField_getLsbD _ _ _ _ h24]
  simp [hk, BitVec.getLsbD_eq_getElem]

/-- A field that does not meet the written one is unchanged. -/
theorem extract_writeField_apart {n : Nat} (acc : Acc24) (lo lo' m : Nat) (v : BitVec n) (h : lo' + m ≤ 24)
    (apart : lo' + m ≤ lo ∨ lo + n ≤ lo') :
    (writeField acc lo v).extractLsb' lo' m = acc.extractLsb' lo' m := by
  ext k hk
  have h24 : lo' + k < 24 := by omega
  have : ¬(lo ≤ lo' + k ∧ lo' + k < lo + n) := by omega
  rw [BitVec.getElem_extractLsb', BitVec.getElem_extractLsb', writeField_getLsbD _ _ _ _ h24, if_neg this]

end Sys2Proof.Machine
end

