-- ==== Sys2Proof/Laws/State.lean ====
section
/-! SUPPORT. What each state update does to each field. Of a faulted state only the fields that 60_exceptions.md R91
specifies have a lemma: the others are free values. -/

namespace Sys2Proof.Machine

@[simp] theorem State.noResponse_acc (s : State) : s.noResponse.acc = s.acc := rfl
@[simp] theorem State.noResponse_bc (s : State) : s.noResponse.bc = s.bc := rfl
@[simp] theorem State.noResponse_cc (s : State) : s.noResponse.cc = s.cc := rfl
@[simp] theorem State.noResponse_mode (s : State) : s.noResponse.mode = s.mode := rfl
@[simp] theorem State.noResponse_lw (s : State) : s.noResponse.lw = s.lw := rfl
@[simp] theorem State.noResponse_pad (s : State) : s.noResponse.pad = s.pad := rfl
@[simp] theorem State.noResponse_col (s : State) : s.noResponse.col = s.col := rfl
@[simp] theorem State.noResponse_padSeen (s : State) : s.noResponse.padSeen = s.padSeen := rfl
@[simp] theorem State.noResponse_done (s : State) : s.noResponse.done = s.done := rfl
@[simp] theorem State.noResponse_cause (s : State) : s.noResponse.cause = s.cause := rfl
@[simp] theorem State.noResponse_out (s : State) : s.noResponse.out = s.out := rfl
@[simp] theorem State.noResponse_params (s : State) : s.noResponse.params = s.params := rfl
@[simp] theorem State.noResponse_host (s : State) : s.noResponse.host = s.host := rfl
@[simp] theorem State.noResponse_rsp (s : State) : s.noResponse.rsp = none := rfl
@[simp] theorem State.noResponse_draws (s : State) : s.noResponse.draws = s.draws := rfl

@[simp] theorem State.withResponse_acc (s : State) (r : Response) : (s.withResponse r).acc = s.acc := rfl
@[simp] theorem State.withResponse_bc (s : State) (r : Response) : (s.withResponse r).bc = s.bc := rfl
@[simp] theorem State.withResponse_cc (s : State) (r : Response) : (s.withResponse r).cc = s.cc := rfl
@[simp] theorem State.withResponse_mode (s : State) (r : Response) : (s.withResponse r).mode = s.mode := rfl
@[simp] theorem State.withResponse_lw (s : State) (r : Response) : (s.withResponse r).lw = s.lw := rfl
@[simp] theorem State.withResponse_pad (s : State) (r : Response) : (s.withResponse r).pad = s.pad := rfl
@[simp] theorem State.withResponse_col (s : State) (r : Response) : (s.withResponse r).col = s.col := rfl
@[simp] theorem State.withResponse_padSeen (s : State) (r : Response) : (s.withResponse r).padSeen = s.padSeen := rfl
@[simp] theorem State.withResponse_done (s : State) (r : Response) : (s.withResponse r).done = s.done := rfl
@[simp] theorem State.withResponse_cause (s : State) (r : Response) : (s.withResponse r).cause = s.cause := rfl
@[simp] theorem State.withResponse_out (s : State) (r : Response) : (s.withResponse r).out = s.out := rfl
@[simp] theorem State.withResponse_params (s : State) (r : Response) : (s.withResponse r).params = s.params := rfl
@[simp] theorem State.withResponse_host (s : State) (r : Response) : (s.withResponse r).host = s.host := rfl
@[simp] theorem State.withResponse_rsp (s : State) (r : Response) : (s.withResponse r).rsp = some r := rfl
@[simp] theorem State.withResponse_draws (s : State) (r : Response) : (s.withResponse r).draws = s.draws := rfl

@[simp] theorem State.clearTcs_acc (s : State) : s.clearTcs.acc = 0#24 := rfl
@[simp] theorem State.clearTcs_bc (s : State) : s.clearTcs.bc = 0#2 := rfl
@[simp] theorem State.clearTcs_cc (s : State) : s.clearTcs.cc = 0#3 := rfl
@[simp] theorem State.clearTcs_mode (s : State) : s.clearTcs.mode = s.mode := rfl
@[simp] theorem State.clearTcs_lw (s : State) : s.clearTcs.lw = s.lw := rfl
@[simp] theorem State.clearTcs_pad (s : State) : s.clearTcs.pad = s.pad := rfl
@[simp] theorem State.clearTcs_col (s : State) : s.clearTcs.col = s.col := rfl
@[simp] theorem State.clearTcs_padSeen (s : State) : s.clearTcs.padSeen = s.padSeen := rfl
@[simp] theorem State.clearTcs_done (s : State) : s.clearTcs.done = s.done := rfl
@[simp] theorem State.clearTcs_cause (s : State) : s.clearTcs.cause = s.cause := rfl
@[simp] theorem State.clearTcs_out (s : State) : s.clearTcs.out = s.out := rfl
@[simp] theorem State.clearTcs_params (s : State) : s.clearTcs.params = s.params := rfl
@[simp] theorem State.clearTcs_host (s : State) : s.clearTcs.host = s.host := rfl
@[simp] theorem State.clearTcs_rsp (s : State) : s.clearTcs.rsp = s.rsp := rfl
@[simp] theorem State.clearTcs_draws (s : State) : s.clearTcs.draws = s.draws := rfl

@[simp] theorem State.putByte_acc (s : State) (b : Byte) : (s.putByte b).acc = writeField s.acc (laneLow s.bc.toNat) b := rfl
@[simp] theorem State.putByte_bc (s : State) (b : Byte) : (s.putByte b).bc = s.bc + 1#2 := rfl
@[simp] theorem State.putByte_cc (s : State) (b : Byte) : (s.putByte b).cc = s.cc := rfl
@[simp] theorem State.putByte_mode (s : State) (b : Byte) : (s.putByte b).mode = s.mode := rfl
@[simp] theorem State.putByte_lw (s : State) (b : Byte) : (s.putByte b).lw = s.lw := rfl
@[simp] theorem State.putByte_pad (s : State) (b : Byte) : (s.putByte b).pad = s.pad := rfl
@[simp] theorem State.putByte_col (s : State) (b : Byte) : (s.putByte b).col = s.col := rfl
@[simp] theorem State.putByte_padSeen (s : State) (b : Byte) : (s.putByte b).padSeen = s.padSeen := rfl
@[simp] theorem State.putByte_done (s : State) (b : Byte) : (s.putByte b).done = s.done := rfl
@[simp] theorem State.putByte_cause (s : State) (b : Byte) : (s.putByte b).cause = s.cause := rfl
@[simp] theorem State.putByte_out (s : State) (b : Byte) : (s.putByte b).out = s.out := rfl
@[simp] theorem State.putByte_params (s : State) (b : Byte) : (s.putByte b).params = s.params := rfl
@[simp] theorem State.putByte_host (s : State) (b : Byte) : (s.putByte b).host = s.host := rfl
@[simp] theorem State.putByte_rsp (s : State) (b : Byte) : (s.putByte b).rsp = s.rsp := rfl
@[simp] theorem State.putByte_draws (s : State) (b : Byte) : (s.putByte b).draws = s.draws := rfl

@[simp] theorem State.putSym_acc (s : State) (v : Sym6) : (s.putSym v).acc = writeField s.acc (slotLow s.cc.toNat) v := rfl
@[simp] theorem State.putSym_bc (s : State) (v : Sym6) : (s.putSym v).bc = s.bc := rfl
@[simp] theorem State.putSym_cc (s : State) (v : Sym6) : (s.putSym v).cc = s.cc + 1#3 := rfl
@[simp] theorem State.putSym_mode (s : State) (v : Sym6) : (s.putSym v).mode = s.mode := rfl
@[simp] theorem State.putSym_lw (s : State) (v : Sym6) : (s.putSym v).lw = s.lw := rfl
@[simp] theorem State.putSym_pad (s : State) (v : Sym6) : (s.putSym v).pad = s.pad := rfl
@[simp] theorem State.putSym_col (s : State) (v : Sym6) : (s.putSym v).col = s.col := rfl
@[simp] theorem State.putSym_padSeen (s : State) (v : Sym6) : (s.putSym v).padSeen = s.padSeen := rfl
@[simp] theorem State.putSym_done (s : State) (v : Sym6) : (s.putSym v).done = s.done := rfl
@[simp] theorem State.putSym_cause (s : State) (v : Sym6) : (s.putSym v).cause = s.cause := rfl
@[simp] theorem State.putSym_out (s : State) (v : Sym6) : (s.putSym v).out = s.out := rfl
@[simp] theorem State.putSym_params (s : State) (v : Sym6) : (s.putSym v).params = s.params := rfl
@[simp] theorem State.putSym_host (s : State) (v : Sym6) : (s.putSym v).host = s.host := rfl
@[simp] theorem State.putSym_rsp (s : State) (v : Sym6) : (s.putSym v).rsp = s.rsp := rfl
@[simp] theorem State.putSym_draws (s : State) (v : Sym6) : (s.putSym v).draws = s.draws := rfl

@[simp] theorem State.pushOut_acc (s : State) (b : Byte) : (s.pushOut b).acc = s.acc := rfl
@[simp] theorem State.pushOut_bc (s : State) (b : Byte) : (s.pushOut b).bc = s.bc := rfl
@[simp] theorem State.pushOut_cc (s : State) (b : Byte) : (s.pushOut b).cc = s.cc := rfl
@[simp] theorem State.pushOut_mode (s : State) (b : Byte) : (s.pushOut b).mode = s.mode := rfl
@[simp] theorem State.pushOut_lw (s : State) (b : Byte) : (s.pushOut b).lw = s.lw := rfl
@[simp] theorem State.pushOut_pad (s : State) (b : Byte) : (s.pushOut b).pad = s.pad := rfl
@[simp] theorem State.pushOut_col (s : State) (b : Byte) : (s.pushOut b).col = s.col := rfl
@[simp] theorem State.pushOut_padSeen (s : State) (b : Byte) : (s.pushOut b).padSeen = s.padSeen := rfl
@[simp] theorem State.pushOut_done (s : State) (b : Byte) : (s.pushOut b).done = s.done := rfl
@[simp] theorem State.pushOut_cause (s : State) (b : Byte) : (s.pushOut b).cause = s.cause := rfl
@[simp] theorem State.pushOut_out (s : State) (b : Byte) : (s.pushOut b).out = s.out.push b := rfl
@[simp] theorem State.pushOut_params (s : State) (b : Byte) : (s.pushOut b).params = s.params := rfl
@[simp] theorem State.pushOut_host (s : State) (b : Byte) : (s.pushOut b).host = s.host := rfl
@[simp] theorem State.pushOut_rsp (s : State) (b : Byte) : (s.pushOut b).rsp = s.rsp := rfl
@[simp] theorem State.pushOut_draws (s : State) (b : Byte) : (s.pushOut b).draws = s.draws := rfl

@[simp] theorem State.countCol_acc (s : State) (n : Nat) : (s.countCol n).acc = s.acc := rfl
@[simp] theorem State.countCol_bc (s : State) (n : Nat) : (s.countCol n).bc = s.bc := rfl
@[simp] theorem State.countCol_cc (s : State) (n : Nat) : (s.countCol n).cc = s.cc := rfl
@[simp] theorem State.countCol_mode (s : State) (n : Nat) : (s.countCol n).mode = s.mode := rfl
@[simp] theorem State.countCol_lw (s : State) (n : Nat) : (s.countCol n).lw = s.lw := rfl
@[simp] theorem State.countCol_pad (s : State) (n : Nat) : (s.countCol n).pad = s.pad := rfl
@[simp] theorem State.countCol_col (s : State) (n : Nat) : (s.countCol n).col = if s.lw then s.col + n else s.col := rfl
@[simp] theorem State.countCol_padSeen (s : State) (n : Nat) : (s.countCol n).padSeen = s.padSeen := rfl
@[simp] theorem State.countCol_done (s : State) (n : Nat) : (s.countCol n).done = s.done := rfl
@[simp] theorem State.countCol_cause (s : State) (n : Nat) : (s.countCol n).cause = s.cause := rfl
@[simp] theorem State.countCol_out (s : State) (n : Nat) : (s.countCol n).out = s.out := rfl
@[simp] theorem State.countCol_params (s : State) (n : Nat) : (s.countCol n).params = s.params := rfl
@[simp] theorem State.countCol_host (s : State) (n : Nat) : (s.countCol n).host = s.host := rfl
@[simp] theorem State.countCol_rsp (s : State) (n : Nat) : (s.countCol n).rsp = s.rsp := rfl
@[simp] theorem State.countCol_draws (s : State) (n : Nat) : (s.countCol n).draws = s.draws := rfl

@[simp] theorem State.startRun_acc (s : State) (m : Mode) : (s.startRun m).acc = 0#24 := rfl
@[simp] theorem State.startRun_bc (s : State) (m : Mode) : (s.startRun m).bc = 0#2 := rfl
@[simp] theorem State.startRun_cc (s : State) (m : Mode) : (s.startRun m).cc = 0#3 := rfl
@[simp] theorem State.startRun_mode (s : State) (m : Mode) : (s.startRun m).mode = m := rfl
@[simp] theorem State.startRun_lw (s : State) (m : Mode) : (s.startRun m).lw = s.lw := rfl
@[simp] theorem State.startRun_pad (s : State) (m : Mode) : (s.startRun m).pad = s.pad := rfl
@[simp] theorem State.startRun_col (s : State) (m : Mode) : (s.startRun m).col = 0 := rfl
@[simp] theorem State.startRun_padSeen (s : State) (m : Mode) : (s.startRun m).padSeen = false := rfl
@[simp] theorem State.startRun_done (s : State) (m : Mode) : (s.startRun m).done = false := rfl
@[simp] theorem State.startRun_cause (s : State) (m : Mode) : (s.startRun m).cause = s.cause := rfl
@[simp] theorem State.startRun_out (s : State) (m : Mode) : (s.startRun m).out = OutBuffer.empty s.params.cap0 := rfl
@[simp] theorem State.startRun_params (s : State) (m : Mode) : (s.startRun m).params = s.params := rfl
@[simp] theorem State.startRun_host (s : State) (m : Mode) : (s.startRun m).host = s.host := rfl
@[simp] theorem State.startRun_rsp (s : State) (m : Mode) : (s.startRun m).rsp = s.rsp := rfl
@[simp] theorem State.startRun_draws (s : State) (m : Mode) : (s.startRun m).draws = s.draws := rfl

@[simp] theorem State.endRun_acc (s : State) : s.endRun.acc = s.acc := rfl
@[simp] theorem State.endRun_bc (s : State) : s.endRun.bc = s.bc := rfl
@[simp] theorem State.endRun_cc (s : State) : s.endRun.cc = s.cc := rfl
@[simp] theorem State.endRun_mode (s : State) : s.endRun.mode = .idle := rfl
@[simp] theorem State.endRun_lw (s : State) : s.endRun.lw = s.lw := rfl
@[simp] theorem State.endRun_pad (s : State) : s.endRun.pad = s.pad := rfl
@[simp] theorem State.endRun_col (s : State) : s.endRun.col = s.col := rfl
@[simp] theorem State.endRun_padSeen (s : State) : s.endRun.padSeen = s.padSeen := rfl
@[simp] theorem State.endRun_done (s : State) : s.endRun.done = true := rfl
@[simp] theorem State.endRun_cause (s : State) : s.endRun.cause = s.cause := rfl
@[simp] theorem State.endRun_out (s : State) : s.endRun.out = s.out := rfl
@[simp] theorem State.endRun_params (s : State) : s.endRun.params = s.params := rfl
@[simp] theorem State.endRun_host (s : State) : s.endRun.host = s.host := rfl
@[simp] theorem State.endRun_rsp (s : State) : s.endRun.rsp = s.rsp := rfl
@[simp] theorem State.endRun_draws (s : State) : s.endRun.draws = s.draws := rfl

@[simp] theorem State.faulted_mode (s : State) (c : Cause) : (s.faulted c).mode = .fault := rfl
@[simp] theorem State.faulted_done (s : State) (c : Cause) : (s.faulted c).done = false := rfl
@[simp] theorem State.faulted_cause (s : State) (c : Cause) : (s.faulted c).cause = c := rfl
@[simp] theorem State.faulted_params (s : State) (c : Cause) : (s.faulted c).params = s.params := rfl
@[simp] theorem State.faulted_host (s : State) (c : Cause) : (s.faulted c).host = s.host := rfl
@[simp] theorem State.faulted_rsp (s : State) (c : Cause) : (s.faulted c).rsp = none := rfl
@[simp] theorem State.faulted_draws (s : State) (c : Cause) : (s.faulted c).draws = s.draws + 1 := rfl

@[simp] theorem State.hostReset_acc (s : State) : s.hostReset.acc = 0#24 := rfl
@[simp] theorem State.hostReset_bc (s : State) : s.hostReset.bc = 0#2 := rfl
@[simp] theorem State.hostReset_cc (s : State) : s.hostReset.cc = 0#3 := rfl
@[simp] theorem State.hostReset_mode (s : State) : s.hostReset.mode = .idle := rfl
@[simp] theorem State.hostReset_lw (s : State) : s.hostReset.lw = false := rfl
@[simp] theorem State.hostReset_pad (s : State) : s.hostReset.pad = false := rfl
@[simp] theorem State.hostReset_col (s : State) : s.hostReset.col = 0 := rfl
@[simp] theorem State.hostReset_padSeen (s : State) : s.hostReset.padSeen = false := rfl
@[simp] theorem State.hostReset_done (s : State) : s.hostReset.done = false := rfl
@[simp] theorem State.hostReset_cause (s : State) : s.hostReset.cause = .none := rfl
@[simp] theorem State.hostReset_out (s : State) : s.hostReset.out = OutBuffer.empty s.params.cap0 := rfl
@[simp] theorem State.hostReset_params (s : State) : s.hostReset.params = s.params := rfl
@[simp] theorem State.hostReset_host (s : State) : s.hostReset.host = s.host := rfl
@[simp] theorem State.hostReset_rsp (s : State) : s.hostReset.rsp = none := rfl
@[simp] theorem State.hostReset_draws (s : State) : s.hostReset.draws = s.draws := rfl

end Sys2Proof.Machine
end

