-- ==== Sys2Proof/Laws/Ops.lean ====
section
/-! SUPPORT. One lemma per shared operation saying all it can do when the step answers a next state (`_next`), and one that
runs it where its condition holds. -/

namespace Sys2Proof.Machine

open Sys2Proof.Safety

/-! ## Guards -/

theorem instanceRefusal_eq_none (p : Params) : instanceRefusal p = none ↔ p.wf = true ∧ p.padCheck = .lenient := by
  unfold instanceRefusal
  cases h : p.padCheck <;> by_cases hw : p.wf <;> simp [hw]

theorem onInstance_run {s : State} (h : Admitted s) (k : State → Result) : onInstance s k = k s := by
  have := (instanceRefusal_eq_none s.params).2 h
  simp [onInstance, this]

theorem onInstance_next {s t : State} {k : State → Result} :
    onInstance s k = .next t ↔ Admitted s ∧ k s = .next t := by
  unfold onInstance Admitted
  rw [← instanceRefusal_eq_none]
  cases h : instanceRefusal s.params <;> simp

theorem receive_run {s : State} (h : Admitted s) (hm : s.mode ≠ .fault) (k : State → Result) : receive s k = k s := by
  simp [receive, onInstance_run h, hm]

theorem receive_fault {s : State} (h : Admitted s) (hm : s.mode = .fault) (k : State → Result) :
    receive s k = .next s.noResponse := by
  simp [receive, onInstance_run h, hm]

theorem receive_next {s t : State} {k : State → Result} :
    receive s k = .next t ↔
      Admitted s ∧ ((s.mode = .fault ∧ t = s.noResponse) ∨ (s.mode ≠ .fault ∧ k s = .next t)) := by
  unfold receive
  rw [onInstance_next]
  by_cases hm : s.mode = .fault <;> simp [hm, eq_comm]

theorem legalIn_run {s : State} {m : Mode} (h : Admitted s) (hm : s.mode = m) (hf : m ≠ .fault) (k : State → Result) :
    legalIn m s k = k s := by
  rw [legalIn, receive_run h (hm ▸ hf), if_pos hm]

theorem legalIn_elsewhere {s : State} {m : Mode} (h : Admitted s) (hm : s.mode ≠ m) (hf : s.mode ≠ .fault)
    (k : State → Result) : legalIn m s k = .next (s.faulted .argErr) := by
  rw [legalIn, receive_run h hf, if_neg hm, raise]

theorem legalIn_fault {s : State} {m : Mode} (h : Admitted s) (hf : s.mode = .fault) (k : State → Result) :
    legalIn m s k = .next s.noResponse := receive_fault h hf _

/-- A command's guard answers a next state in one of three ways: ignored in FAULT, ARGERR in another mode, else as the
command's own rule says. -/
theorem legalIn_next {s t : State} {m : Mode} {k : State → Result} :
    legalIn m s k = .next t ↔
      Admitted s ∧ ((s.mode = .fault ∧ t = s.noResponse) ∨
        (s.mode ≠ .fault ∧ s.mode ≠ m ∧ t = s.faulted .argErr) ∨
        (s.mode ≠ .fault ∧ s.mode = m ∧ k s = .next t)) := by
  unfold legalIn
  rw [receive_next]
  by_cases hm : s.mode = m <;> simp [hm, raise, eq_comm]

/-- The words that are no encoding (30_encoding.md R52 steps 1 to 3). -/
theorem illegalWord_next {s t : State} :
    illegalWord s = .next t ↔
      Admitted s ∧ ((s.mode = .fault ∧ t = s.noResponse) ∨ (s.mode ≠ .fault ∧ t = s.faulted .argErr)) := by
  unfold illegalWord
  rw [receive_next]
  simp [raise, eq_comm]

/-- 60_exceptions.md R91, the part it specifies. -/
theorem takesFault_faulted (c : Cause) (s : State) : TakesFault c s (.next (s.faulted c)) :=
  ⟨_, rfl, ⟨rfl, rfl, rfl⟩, rfl, rfl, rfl⟩

theorem raise_takesFault (c : Cause) (s : State) : TakesFault c s (raise c s) := takesFault_faulted c s

/-! ## Micro-operations on TCS -/

theorem tcsAddByte_run {s : State} (hb : s.bc.toNat < 3) (hc : s.cc = 0#3) (b : Byte) (k : State → Result) :
    tcsAddByte b s k = k (s.putByte b) := by
  simp [tcsAddByte, hb, hc]

theorem tcsAddByte_next {s t : State} {b : Byte} {k : State → Result} :
    tcsAddByte b s k = .next t ↔ s.bc.toNat < 3 ∧ s.cc = 0#3 ∧ k (s.putByte b) = .next t := by
  unfold tcsAddByte
  by_cases h : s.bc.toNat < 3 ∧ s.cc = 0#3
  · rw [if_pos h]; simp [h]
  · rw [if_neg h]; simp; tauto

theorem tcsGetChars_run {s : State} (hc : s.cc = 0#3) (k : List Byte → State → Result) :
    tcsGetChars s k = k (heldChars s) s.clearTcs := by
  simp [tcsGetChars, hc]

theorem tcsGetChars_next {s t : State} {k : List Byte → State → Result} :
    tcsGetChars s k = .next t ↔ s.cc = 0#3 ∧ k (heldChars s) s.clearTcs = .next t := by
  unfold tcsGetChars
  by_cases h : s.cc = 0#3 <;> simp [h]

theorem tcsAddChar_run {s : State} {ch : Byte} {v : Sym6} (hv : dec6 ch = some v) (hc : s.cc.toNat < 4) (hb : s.bc = 0#2)
    (k : State → Result) : tcsAddChar ch s k = k (s.putSym v) := by
  simp [tcsAddChar, hv, hc, hb]

theorem tcsAddChar_next {s t : State} {ch : Byte} {k : State → Result} :
    tcsAddChar ch s k = .next t ↔
      ∃ v, dec6 ch = some v ∧ s.cc.toNat < 4 ∧ s.bc = 0#2 ∧ k (s.putSym v) = .next t := by
  unfold tcsAddChar
  cases hv : dec6 ch with
  | none => simp
  | some v =>
    by_cases h : s.cc.toNat < 4 ∧ s.bc = 0#2
    · simp only [if_pos h]; simp [h]
    · simp only [if_neg h]; simp; tauto

theorem tcsGetBytes_run {s : State} (hb : s.bc = 0#2) (hc : s.cc.toNat ≤ 4) (k : List Byte → State → Result) :
    tcsGetBytes s k = k (heldBytes s) s.clearTcs := by
  simp [tcsGetBytes, hb, hc]

theorem tcsGetBytes_next {s t : State} {k : List Byte → State → Result} :
    tcsGetBytes s k = .next t ↔ s.bc = 0#2 ∧ s.cc.toNat ≤ 4 ∧ k (heldBytes s) s.clearTcs = .next t := by
  unfold tcsGetBytes
  by_cases h : s.bc = 0#2 ∧ s.cc.toNat ≤ 4
  · rw [if_pos h]; simp [h]
  · rw [if_neg h]; simp; tauto

/-! ## The output buffer -/

/-- `OutAppendAll` on the state, when nothing is refused. -/
def State.pushAll (s : State) (bs : List Byte) : State := { s with out := bs.foldl OutBuffer.push s.out }

@[simp] theorem State.pushAll_acc (s : State) (bs : List Byte) : (s.pushAll bs).acc = s.acc := rfl
@[simp] theorem State.pushAll_bc (s : State) (bs : List Byte) : (s.pushAll bs).bc = s.bc := rfl
@[simp] theorem State.pushAll_cc (s : State) (bs : List Byte) : (s.pushAll bs).cc = s.cc := rfl
@[simp] theorem State.pushAll_mode (s : State) (bs : List Byte) : (s.pushAll bs).mode = s.mode := rfl
@[simp] theorem State.pushAll_lw (s : State) (bs : List Byte) : (s.pushAll bs).lw = s.lw := rfl
@[simp] theorem State.pushAll_pad (s : State) (bs : List Byte) : (s.pushAll bs).pad = s.pad := rfl
@[simp] theorem State.pushAll_col (s : State) (bs : List Byte) : (s.pushAll bs).col = s.col := rfl
@[simp] theorem State.pushAll_padSeen (s : State) (bs : List Byte) : (s.pushAll bs).padSeen = s.padSeen := rfl
@[simp] theorem State.pushAll_done (s : State) (bs : List Byte) : (s.pushAll bs).done = s.done := rfl
@[simp] theorem State.pushAll_cause (s : State) (bs : List Byte) : (s.pushAll bs).cause = s.cause := rfl
@[simp] theorem State.pushAll_params (s : State) (bs : List Byte) : (s.pushAll bs).params = s.params := rfl
@[simp] theorem State.pushAll_host (s : State) (bs : List Byte) : (s.pushAll bs).host = s.host := rfl
@[simp] theorem State.pushAll_rsp (s : State) (bs : List Byte) : (s.pushAll bs).rsp = s.rsp := rfl
@[simp] theorem State.pushAll_draws (s : State) (bs : List Byte) : (s.pushAll bs).draws = s.draws := rfl

@[simp] theorem OutBuffer.push_data (o : OutBuffer) (b : Byte) : (o.push b).data = o.data ++ [b] := rfl

@[simp] theorem OutBuffer.empty_data (c : Nat) : (OutBuffer.empty c).data = [] := rfl

@[simp] theorem OutBuffer.empty_cap (c : Nat) : (OutBuffer.empty c).cap = c := rfl

@[simp] theorem OutBuffer.foldl_push_data (bs : List Byte) (o : OutBuffer) : (bs.foldl OutBuffer.push o).data = o.data ++ bs := by
  induction bs generalizing o with
  | nil => simp
  | cons b bs ih => simp [ih]

/-- 20_memory.md R30: the bytes are appended in order and nothing before them changes. -/
@[simp] theorem State.pushAll_data (s : State) (bs : List Byte) : (s.pushAll bs).out.data = s.out.data ++ bs :=
  OutBuffer.foldl_push_data bs s.out

/-- The buffer's form: `length ≤ capacity` and the capacity is `CAP0 * 2^k` (10_state.md R10, R21). -/
def OutBuffer.wf (cap0 : Nat) (o : OutBuffer) : Prop := o.data.length ≤ o.cap ∧ ∃ k, o.cap = cap0 * 2 ^ k

theorem OutBuffer.empty_wf (cap0 : Nat) : OutBuffer.wf cap0 (OutBuffer.empty cap0) := ⟨Nat.zero_le _, 0, by simp⟩

/-- 20_memory.md R30: an append keeps the buffer's form. -/
theorem OutBuffer.push_wf {cap0 : Nat} (h0 : 1 ≤ cap0) {o : OutBuffer} (h : OutBuffer.wf cap0 o) (b : Byte) :
    OutBuffer.wf cap0 (o.push b) := by
  obtain ⟨hlen, k, hk⟩ := h
  have hpos : 1 ≤ o.cap := hk ▸ Nat.mul_pos h0 (Nat.two_pow_pos k)
  unfold OutBuffer.push OutBuffer.wf
  by_cases hfull : o.data.length = o.cap
  · simp only [hfull, if_true, List.length_append, List.length_singleton]
    exact ⟨by omega, k + 1, by rw [hk, Nat.pow_succ]; ring⟩
  · simp only [hfull, if_false, List.length_append, List.length_singleton]
    exact ⟨by omega, k, hk⟩

theorem OutBuffer.foldl_push_wf {cap0 : Nat} (h0 : 1 ≤ cap0) (bs : List Byte) {o : OutBuffer} (h : OutBuffer.wf cap0 o) :
    OutBuffer.wf cap0 (bs.foldl OutBuffer.push o) := by
  induction bs generalizing o with
  | nil => exact h
  | cons b bs ih => exact ih (OutBuffer.push_wf h0 h b)

theorem outInv_iff (s : State) : OutInv s ↔ OutBuffer.wf s.params.cap0 s.out ∧ hasRoom s 0 = true := by
  simp [OutInv, OutBuffer.wf, OutBuffer.len, and_assoc]

theorem hasRoom_iff (s : State) (n : Nat) :
    hasRoom s n = true ↔ ∀ m, s.params.maxOut = some m → s.out.data.length + n ≤ m := by
  unfold hasRoom
  cases h : s.params.maxOut <;> simp

theorem hasRoom_unbounded {s : State} (h : s.params.maxOut = none) (n : Nat) : hasRoom s n = true := by
  simp [hasRoom, h]

theorem hasRoom_pushOut (s : State) (b : Byte) (n : Nat) : hasRoom (s.pushOut b) n = hasRoom s (n + 1) := by
  simp [hasRoom, Nat.add_assoc, Nat.add_comm 1 n]

theorem hasRoom_pushAll (s : State) (bs : List Byte) (n : Nat) :
    hasRoom (s.pushAll bs) n = hasRoom s (bs.length + n) := by
  simp [hasRoom, Nat.add_assoc]

theorem hasRoom_mono {s : State} {m n : Nat} (h : m ≤ n) (hn : hasRoom s n = true) : hasRoom s m = true := by
  rw [hasRoom_iff] at *
  intro c hc
  have := hn c hc
  omega

theorem outAppend_next {b : Byte} {s t : State} {k : State → Result} :
    outAppend b s k = .next t ↔ hasRoom s 1 = true ∧ k (s.pushOut b) = .next t := by
  unfold outAppend
  by_cases h : hasRoom s 1 = true <;> simp [h]

theorem outAppend_run {s : State} (h : hasRoom s 1 = true) (b : Byte) (k : State → Result) :
    outAppend b s k = k (s.pushAll [b]) := by
  simp [outAppend, h, State.pushOut, State.pushAll]

theorem outAppendAll_run {bs : List Byte} {s : State} (h : hasRoom s bs.length = true) (k : State → Result) :
    outAppendAll bs s k = k (s.pushAll bs) := by
  induction bs generalizing s with
  | nil => rfl
  | cons b bs ih =>
    have h1 : hasRoom s 1 = true := hasRoom_mono (by simp) h
    have h2 : hasRoom (s.pushOut b) bs.length = true := by rw [hasRoom_pushOut]; exact h
    unfold outAppendAll outAppend
    rw [if_pos h1]
    exact ih h2

/-- Where it does not fit, the command is refused (20_memory.md R41). -/
theorem outAppendAll_full {bs : List Byte} {s : State} (h0 : hasRoom s 0 = true) (h : hasRoom s bs.length = false)
    (k : State → Result) : outAppendAll bs s k = .refused .outExhausted := by
  induction bs generalizing s with
  | nil => simp [h0] at h
  | cons b bs ih =>
    unfold outAppendAll outAppend
    by_cases h1 : hasRoom s 1 = true
    · rw [if_pos h1]
      exact ih (by rw [hasRoom_pushOut]; exact h1) (by rw [hasRoom_pushOut]; exact h)
    · rw [if_neg h1]

/-- All that `OutAppendAll` can do when the step answers a next state. -/
theorem outAppendAll_next {bs : List Byte} {s t : State} {k : State → Result} :
    outAppendAll bs s k = .next t → k (s.pushAll bs) = .next t ∧ (bs = [] ∨ hasRoom s bs.length = true) := by
  induction bs generalizing s with
  | nil => exact fun h => ⟨h, .inl rfl⟩
  | cons b bs ih =>
    intro h
    unfold outAppendAll at h
    rw [outAppend_next] at h
    obtain ⟨h1, h2⟩ := h
    obtain ⟨h3, h4⟩ := ih h2
    refine ⟨h3, .inr ?_⟩
    rcases h4 with rfl | h4
    · exact h1
    · rw [hasRoom_pushOut] at h4; exact h4

/-! ## The encoder's group emission -/

/-- The wrap break that precedes a group (42_encoder.md R65). -/
def wrapBreak (s : State) : List Byte := if s.lw = true ∧ s.col = s.params.width then [lf] else []

/-- The column the group starts at. -/
def startCol (s : State) : Nat := if s.lw = true ∧ s.col = s.params.width then 0 else s.col

/-- `emitGroup(g)` on the state, when nothing is refused (R65). -/
def State.emitted (s : State) (g : List Byte) : State :=
  { s.pushAll (wrapBreak s ++ g) with col := if s.lw then startCol s + g.length else startCol s }

theorem breakIfFull_run {s : State} (h : hasRoom s (wrapBreak s).length = true) (k : State → Result) :
    breakIfFull s k = k { s.pushAll (wrapBreak s) with col := startCol s } := by
  unfold breakIfFull wrapBreak startCol
  unfold wrapBreak at h
  by_cases hf : s.lw = true ∧ s.col = s.params.width
  · simp only [if_pos hf] at h ⊢
    rw [outAppend_run h]
  · simp only [if_neg hf]
    rfl

theorem emitGroup_run {g : List Byte} {s : State} (h : hasRoom s ((wrapBreak s).length + g.length) = true)
    (k : State → Result) : emitGroup g s k = k (s.emitted g) := by
  unfold emitGroup
  rw [breakIfFull_run (hasRoom_mono (by omega) h)]
  have h2 : hasRoom ({ s.pushAll (wrapBreak s) with col := startCol s } : State) g.length = true := by
    have := hasRoom_pushAll s (wrapBreak s) g.length
    rw [← this] at h
    exact h
  rw [outAppendAll_run h2]
  simp only [State.emitted, State.countCol, State.pushAll, List.foldl_append]
  rfl

/-- All that `emitGroup` can do when the step answers a next state. -/
theorem emitGroup_next {g : List Byte} {s t : State} {k : State → Result} (h : emitGroup g s k = .next t) :
    k (s.emitted g) = .next t ∧
      (wrapBreak s ++ g = [] ∨ hasRoom s ((wrapBreak s).length + g.length) = true) := by
  unfold emitGroup breakIfFull at h
  by_cases hf : s.lw = true ∧ s.col = s.params.width
  · rw [if_pos hf, outAppend_next] at h
    obtain ⟨h1, h2⟩ := h
    obtain ⟨h3, h4⟩ := outAppendAll_next h2
    have hw : wrapBreak s = [lf] := if_pos hf
    have hr : hasRoom s (1 + g.length) = true := by
      rcases h4 with rfl | h4
      · exact h1
      · rw [Nat.add_comm, ← hasRoom_pushOut s lf]; exact h4
    refine ⟨?_, .inr (by rw [hw]; exact hr)⟩
    rw [← h3]
    congr 1
    simp [State.emitted, State.countCol, State.pushAll, State.pushOut, hw, startCol, if_pos hf]
  · rw [if_neg hf] at h
    obtain ⟨h3, h4⟩ := outAppendAll_next h
    have hw : wrapBreak s = [] := if_neg hf
    refine ⟨?_, by simpa [hw] using h4⟩
    rw [← h3]
    congr 1
    simp only [State.emitted, State.countCol, State.pushAll, hw, startCol, if_neg hf, List.nil_append]
    rfl

/-- Where the break and the group do not fit, the command is refused (20_memory.md R41). -/
theorem emitGroup_full {g : List Byte} {s : State} (h0 : hasRoom s 0 = true)
    (h : hasRoom s ((wrapBreak s).length + g.length) = false) (k : State → Result) :
    emitGroup g s k = .refused .outExhausted := by
  unfold emitGroup breakIfFull
  by_cases hf : s.lw = true ∧ s.col = s.params.width
  · have hw : wrapBreak s = [lf] := if_pos hf
    rw [if_pos hf]
    unfold outAppend
    by_cases h1 : hasRoom s 1 = true
    · rw [if_pos h1]
      refine outAppendAll_full (s := { s.pushOut lf with col := 0 }) ((hasRoom_pushOut s lf 0).trans h1)
        ((hasRoom_pushOut s lf g.length).trans ?_) _
      rw [hw] at h
      simpa [Nat.add_comm] using h
    · rw [if_neg h1]
  · have hw : wrapBreak s = [] := if_neg hf
    rw [if_neg hf]
    rw [hw] at h
    exact outAppendAll_full h0 (by simpa using h) _

@[simp] theorem State.emitted_acc (s : State) (g : List Byte) : (s.emitted g).acc = s.acc := rfl
@[simp] theorem State.emitted_bc (s : State) (g : List Byte) : (s.emitted g).bc = s.bc := rfl
@[simp] theorem State.emitted_cc (s : State) (g : List Byte) : (s.emitted g).cc = s.cc := rfl
@[simp] theorem State.emitted_mode (s : State) (g : List Byte) : (s.emitted g).mode = s.mode := rfl
@[simp] theorem State.emitted_lw (s : State) (g : List Byte) : (s.emitted g).lw = s.lw := rfl
@[simp] theorem State.emitted_pad (s : State) (g : List Byte) : (s.emitted g).pad = s.pad := rfl
@[simp] theorem State.emitted_col (s : State) (g : List Byte) :
    (s.emitted g).col = if s.lw then startCol s + g.length else startCol s := rfl
@[simp] theorem State.emitted_padSeen (s : State) (g : List Byte) : (s.emitted g).padSeen = s.padSeen := rfl
@[simp] theorem State.emitted_done (s : State) (g : List Byte) : (s.emitted g).done = s.done := rfl
@[simp] theorem State.emitted_cause (s : State) (g : List Byte) : (s.emitted g).cause = s.cause := rfl
@[simp] theorem State.emitted_params (s : State) (g : List Byte) : (s.emitted g).params = s.params := rfl
@[simp] theorem State.emitted_host (s : State) (g : List Byte) : (s.emitted g).host = s.host := rfl
@[simp] theorem State.emitted_rsp (s : State) (g : List Byte) : (s.emitted g).rsp = s.rsp := rfl
@[simp] theorem State.emitted_draws (s : State) (g : List Byte) : (s.emitted g).draws = s.draws := rfl
theorem State.emitted_out (s : State) (g : List Byte) :
    (s.emitted g).out = (wrapBreak s ++ g).foldl OutBuffer.push s.out := rfl
@[simp] theorem State.emitted_data (s : State) (g : List Byte) :
    (s.emitted g).out.data = s.out.data ++ (wrapBreak s ++ g) := State.pushAll_data s _

end Sys2Proof.Machine
end

