-- ==== Sys2Proof/Laws/Commands.lean ====
section
/-! SUPPORT. What each command can do, said once: it is ignored, or it faults under a condition on the state before, or it
is ready and its next state is `effect`. Proofs over `exec` cite `exec_next`, `exec_run` and `exec_raises`. -/

namespace Sys2Proof.Machine

open Sys2Proof.Safety

/-- The state after the flush of a partial group (42_encoder.md R68). -/
def State.flushed (s : State) : State :=
  if s.bc = 0#2 then s else s.clearTcs.emitted (padGroup s.pad (heldChars s))

/-- How many bytes the flush appends. -/
def flushLength (s : State) : Nat :=
  if s.bc = 0#2 then 0 else (wrapBreak s).length + (padGroup s.pad (heldChars s)).length

/-- The next state of a command that neither faults nor stops. -/
def effect : Instr → State → State
  | .addb b, s => (s.putByte b).withResponse []
  | .getc, s => s.clearTcs.withResponse (heldChars s)
  | .addc ch, s => (s.putSym ((dec6 ch).getD 0#6)).withResponse []
  | .getb, s => s.clearTcs.withResponse (heldBytes s)
  | .clr, s => s.clearTcs.withResponse []
  | .encs lw np, s => State.withResponse { s.startRun .enc with lw := lw, pad := !np } []
  | .encb b, s =>
    if s.bc = 2#2 then ((s.putByte b).clearTcs.emitted (heldChars (s.putByte b))).withResponse []
    else (s.putByte b).withResponse []
  | .ence, s => (s.flushed.pushAll [lf]).endRun.withResponse []
  | .decs, s => (s.startRun .dec).withResponse []
  | .decc ch, s =>
    match classify s.params ch with
    | .ws => s.withResponse []
    | .padCh => State.withResponse { s with padSeen := true } []
    | .bad => s
    | .sym v =>
      if s.cc = 3#3 then ((s.putSym v).clearTcs.pushAll (heldBytes (s.putSym v))).withResponse []
      else (s.putSym v).withResponse []
  | .dece, s => (s.clearTcs.pushAll (heldBytes s)).endRun.withResponse []

/-- What a command needs of the state, beside its MODE, to neither fault nor stop. -/
def Ready : Instr → State → Prop
  | .addb _, s => s.bc.toNat < 3 ∧ s.cc = 0#3
  | .getc, s => s.cc = 0#3
  | .addc ch, s => (dec6 ch).isSome = true ∧ s.cc.toNat < 4 ∧ s.bc = 0#2
  | .getb, s => s.bc = 0#2 ∧ s.cc.toNat ≤ 4
  | .clr, _ => True
  | .encs _ _, _ => True
  | .encb _, s =>
    s.bc.toNat < 3 ∧ s.cc = 0#3 ∧ (s.bc = 2#2 → hasRoom s ((wrapBreak s).length + 4) = true)
  | .ence, s => (s.bc ≠ 0#2 → s.cc = 0#3) ∧ hasRoom s (flushLength s + 1) = true
  | .decs, _ => True
  | .decc ch, s =>
    match classify s.params ch with
    | .ws => True
    | .padCh => True
    | .bad => False
    | .sym _ => s.padSeen = false ∧ s.cc.toNat < 4 ∧ s.bc = 0#2 ∧ (s.cc = 3#3 → hasRoom s 3 = true)
  | .dece, s =>
    s.bc = 0#2 ∧ s.cc.toNat ≤ 4 ∧ (byteCount s.cc = 0 ∨ hasRoom s (byteCount s.cc) = true)

/-- The fault of its own that a command in its MODE raises, if it does (60_exceptions.md R88, R89). -/
def ownFault : Instr → State → Option Cause
  | .addb _, s => if s.bc = 3#2 ∨ s.cc ≠ 0#3 then some .protocol else none
  | .getc, s => if s.cc ≠ 0#3 then some .protocol else none
  | .addc ch, s => if s.cc = 4#3 ∨ s.bc ≠ 0#2 ∨ dec6 ch = none then some .protocol else none
  | .getb, s => if s.bc ≠ 0#2 then some .protocol else none
  | .decc ch, s =>
    match classify s.params ch with
    | .ws => none
    | .padCh => none
    | .bad => some .invalidInput
    | .sym _ => if s.padSeen then some .invalidInput else none
  | .clr, _ => none
  | .encs _ _, _ => none
  | .encb _, _ => none
  | .ence, _ => none
  | .decs, _ => none
  | .dece, _ => none

/-- A command's own rule (30_encoding.md R52 step 5). -/
def ownRule : Instr → State → Result
  | .addb b, s => ruleAddb b s
  | .getc, s => ruleGetc s
  | .addc ch, s => ruleAddc ch s
  | .getb, s => ruleGetb s
  | .clr, s => ruleClr s
  | .encs lw np, s => ruleEncs lw np s
  | .encb b, s => ruleEncb b s
  | .ence, s => ruleEnce s
  | .decs, s => ruleDecs s
  | .decc ch, s => ruleDecc ch s
  | .dece, s => ruleDece s

/-- Every command is its own rule behind the MODE check. -/
theorem exec_eq (i : Instr) (s : State) : exec i s = legalIn (legalMode i) s (ownRule i) := by cases i <;> rfl

theorem legalMode_ne_fault (i : Instr) : legalMode i ≠ .fault := by cases i <;> simp [legalMode]

/-! ## The counts of a drain -/

@[simp] theorem heldChars_length (s : State) : (heldChars s).length = charCount s.bc := by
  have h : ∀ x : BitVec 2, min (charCount x) 4 = charCount x := by decide
  simpa [heldChars] using h s.bc

@[simp] theorem heldBytes_length (s : State) : (heldBytes s).length = byteCount s.cc := by
  have h : ∀ x : BitVec 3, min (byteCount x) 3 = byteCount x := by decide
  simpa [heldBytes] using h s.cc

theorem padGroup_length (pad : Bool) (cs : List Byte) (h : cs.length ≤ 4) :
    (padGroup pad cs).length = if pad then 4 else cs.length := by
  unfold padGroup
  cases pad <;> simp
  omega

@[simp] theorem wrapBreak_putByte (s : State) (b : Byte) : wrapBreak (s.putByte b) = wrapBreak s := rfl
@[simp] theorem wrapBreak_clearTcs (s : State) : wrapBreak s.clearTcs = wrapBreak s := rfl
@[simp] theorem startCol_putByte (s : State) (b : Byte) : startCol (s.putByte b) = startCol s := rfl
@[simp] theorem startCol_clearTcs (s : State) : startCol s.clearTcs = startCol s := rfl
@[simp] theorem hasRoom_putByte (s : State) (b : Byte) (n : Nat) : hasRoom (s.putByte b) n = hasRoom s n := rfl
@[simp] theorem hasRoom_putSym (s : State) (v : Sym6) (n : Nat) : hasRoom (s.putSym v) n = hasRoom s n := rfl
@[simp] theorem hasRoom_clearTcs (s : State) (n : Nat) : hasRoom s.clearTcs n = hasRoom s n := rfl

theorem bc_eq_three {s : State} (b : Byte) : (s.putByte b).bc = 3#2 ↔ s.bc = 2#2 := by
  simp only [State.putByte_bc]
  generalize s.bc = x
  revert x
  decide

theorem cc_eq_four {s : State} (v : Sym6) : (s.putSym v).cc = 4#3 ↔ s.cc = 3#3 := by
  simp only [State.putSym_cc]
  generalize s.cc = x
  revert x
  decide

theorem bc_lt_three {x : BitVec 2} : x.toNat < 3 ↔ x ≠ 3#2 := by revert x; decide

/-! ## One lemma per command -/

theorem flushGroup_run {s : State} {k : State → Result} (hc : s.bc ≠ 0#2 → s.cc = 0#3)
    (hr : hasRoom s (flushLength s) = true) : flushGroup s k = k s.flushed := by
  unfold flushGroup State.flushed flushLength at *
  by_cases hb : s.bc = 0#2
  · simp [hb]
  · simp only [if_neg hb] at hr ⊢
    rw [tcsGetChars_run (hc hb), emitGroup_run (by simpa using hr)]
    rfl

theorem flushGroup_next {s t : State} {k : State → Result} (h : flushGroup s k = .next t) :
    (s.bc ≠ 0#2 → s.cc = 0#3) ∧ k s.flushed = .next t := by
  unfold flushGroup State.flushed at *
  by_cases hb : s.bc = 0#2
  · simp only [if_pos hb] at h ⊢
    exact ⟨fun h' => absurd hb h', h⟩
  · simp only [if_neg hb] at h ⊢
    rw [tcsGetChars_next] at h
    exact ⟨fun _ => h.1, (emitGroup_next h.2).1⟩

theorem hasRoom_flushed (s : State) (n : Nat) : hasRoom s.flushed n = hasRoom s (flushLength s + n) := by
  unfold State.flushed flushLength
  by_cases hb : s.bc = 0#2
  · simp [hb]
  · simp only [if_neg hb]
    simp [hasRoom, Nat.add_assoc]

/-- A ready command of an admitted instance in its MODE completes with its effect. -/
theorem exec_run {i : Instr} {s : State} (ha : Admitted s) (hm : s.mode = legalMode i) (hr : Ready i s) :
    exec i s = .next (effect i s) := by
  rw [exec_eq, legalIn_run ha hm (legalMode_ne_fault i)]
  cases i with
  | addb b =>
    obtain ⟨hb, hc⟩ := hr
    simp only [ownRule, ruleAddb, effect]
    rw [if_neg (bc_lt_three.1 hb), if_neg (not_not.2 hc), tcsAddByte_run hb hc, respond]
  | getc =>
    simp only [ownRule, ruleGetc, effect]
    have hc : s.cc = 0#3 := hr
    rw [if_neg (not_not.2 hc), tcsGetChars_run hc, respond]
  | addc ch =>
    obtain ⟨hv, hc, hb⟩ := hr
    obtain ⟨v, hv⟩ := Option.isSome_iff_exists.1 hv
    have hc4 : s.cc ≠ 4#3 := by rintro h; simp [h] at hc
    simp only [ownRule, ruleAddc, effect]
    rw [if_neg hc4, if_neg (not_not.2 hb), if_neg (by simp [hv]), tcsAddChar_run hv hc hb, respond]
    simp [hv]
  | getb =>
    obtain ⟨hb, hc⟩ := hr
    simp only [ownRule, ruleGetb, effect]
    rw [if_neg (not_not.2 hb), tcsGetBytes_run hb hc, respond]
  | clr => simp only [ownRule, ruleClr, effect, respond]
  | encs lw np => simp only [ownRule, ruleEncs, effect, respond]
  | encb b =>
    obtain ⟨hb, hc, hroom⟩ := hr
    simp only [ownRule, ruleEncb, effect]
    rw [tcsAddByte_run hb hc]
    by_cases h2 : s.bc = 2#2
    · have h3 := (bc_eq_three b).2 h2
      have hn : charCount 3#2 = 4 := rfl
      rw [if_pos h3, if_pos h2, tcsGetChars_run (s := s.putByte b) hc, emitGroup_run (by simpa [h3, hn, h2] using hroom h2), respond]
    · rw [if_neg (mt (bc_eq_three b).1 h2), if_neg h2, respond]
  | ence =>
    obtain ⟨hc, hroom⟩ := hr
    simp only [ownRule, ruleEnce, effect]
    rw [flushGroup_run hc (hasRoom_mono (by omega) hroom), outAppend_run (by rw [hasRoom_flushed]; exact hroom), respond]
  | decs => simp only [ownRule, ruleDecs, effect, respond]
  | decc ch =>
    simp only [ownRule, ruleDecc, effect, Ready] at hr ⊢
    cases hcl : classify s.params ch with
    | ws => simp [respond]
    | padCh => simp [respond]
    | bad => simp [hcl] at hr
    | sym v =>
      simp only [hcl] at hr
      obtain ⟨hp, hc, hb, hroom⟩ := hr
      have hv : dec6 ch = some v := by
        unfold classify at hcl
        split at hcl <;> try simp at hcl
        split at hcl <;> try simp at hcl
        split at hcl <;> simp_all
      simp only [hp, takeSymbol]
      rw [tcsAddChar_run hv hc hb]
      by_cases h3 : s.cc = 3#3
      · have h4 := (cc_eq_four v).2 h3
        have hn : byteCount 4#3 = 3 := rfl
        simp only [if_pos h3, if_pos h4]
        rw [tcsGetBytes_run (s := s.putSym v) hb (by rw [h4]; decide),
          outAppendAll_run (by rw [heldBytes_length, h4, hn]; exact hroom h3)]
        simp [respond]
      · simp only [if_neg h3, if_neg (mt (cc_eq_four v).1 h3)]
        simp [respond]
  | dece =>
    obtain ⟨hb, hc, hroom⟩ := hr
    simp only [ownRule, ruleDece, effect]
    rw [tcsGetBytes_run hb hc]
    rcases hroom with h0 | hroom
    · have : heldBytes s = [] := List.eq_nil_of_length_eq_zero (by simpa using h0)
      rw [this]
      rfl
    · rw [outAppendAll_run (by simpa using hroom), respond]

/-- A command of an admitted instance in its MODE raises the fault of its own, when it has one. -/
theorem exec_raises {i : Instr} {s : State} {c : Cause} (ha : Admitted s) (hm : s.mode = legalMode i)
    (h : ownFault i s = some c) : exec i s = .next (s.faulted c) := by
  rw [exec_eq, legalIn_run ha hm (legalMode_ne_fault i)]
  cases i with
  | addb b =>
    simp only [ownFault] at h
    split at h <;> simp at h
    subst h
    simp only [ownRule, ruleAddb, raise]
    rename_i hb
    rcases hb with hb | hc
    · rw [if_pos hb]
    · split <;> rfl
  | getc =>
    simp only [ownFault] at h
    split at h <;> simp at h
    subst h
    simp only [ownRule, ruleGetc, raise]
    rw [if_pos ‹_›]
  | addc ch =>
    simp only [ownFault] at h
    split at h <;> simp at h
    subst h
    simp only [ownRule, ruleAddc, raise]
    rename_i hb
    split
    · rfl
    · split
      · rfl
      · rw [if_pos (by tauto)]
  | getb =>
    simp only [ownFault] at h
    split at h <;> simp at h
    subst h
    simp only [ownRule, ruleGetb, raise]
    rw [if_pos ‹_›]
  | decc ch =>
    simp only [ownFault] at h
    simp only [ownRule, ruleDecc]
    cases hcl : classify s.params ch with
    | ws => simp [hcl] at h
    | padCh => simp [hcl] at h
    | bad => simp [hcl] at h; subst h; rfl
    | sym v =>
      simp only [hcl] at h ⊢
      split at h <;> simp at h
      subst h
      rw [if_pos ‹_›, raise]
  | clr => simp [ownFault] at h
  | encs lw np => simp [ownFault] at h
  | encb b => simp [ownFault] at h
  | ence => simp [ownFault] at h
  | decs => simp [ownFault] at h
  | dece => simp [ownFault] at h

/-- The same in the other direction, for a command in its MODE: a next state is that of its own fault or its effect. -/
theorem exec_next_here {i : Instr} {s t : State} (ha : Admitted s) (hm : s.mode = legalMode i) (h : exec i s = .next t) :
    (∃ c, ownFault i s = some c ∧ t = s.faulted c) ∨ (ownFault i s = none ∧ Ready i s ∧ t = effect i s) := by
  cases hf : ownFault i s with
  | some c =>
    rw [exec_raises ha hm hf] at h
    exact .inl ⟨c, rfl, by simpa [eq_comm] using h⟩
  | none =>
    refine .inr ⟨rfl, ?_⟩
    suffices hr : Ready i s by
      rw [exec_run ha hm hr] at h
      exact ⟨hr, by simpa [eq_comm] using h⟩
    rw [exec_eq, legalIn_run ha hm (legalMode_ne_fault i)] at h
    cases i with
    | addb b =>
      simp only [ownRule, ruleAddb] at h
      simp only [ownFault] at hf
      split at hf <;> simp at hf
      rename_i hn
      push Not at hn
      exact ⟨bc_lt_three.2 hn.1, hn.2⟩
    | getc =>
      simp only [ownFault] at hf
      split at hf <;> simp at hf
      rename_i hn
      exact not_not.1 hn
    | addc ch =>
      simp only [ownRule, ruleAddc] at h
      simp only [ownFault] at hf
      split at hf <;> simp at hf
      rename_i hn
      push Not at hn
      rw [if_neg hn.1, if_neg (not_not.2 hn.2.1), if_neg hn.2.2, tcsAddChar_next] at h
      obtain ⟨v, hv, hc, hb, -⟩ := h
      exact ⟨by simp [hv], hc, hb⟩
    | getb =>
      simp only [ownRule, ruleGetb] at h
      simp only [ownFault] at hf
      split at hf <;> simp at hf
      rename_i hn
      rw [if_neg hn, tcsGetBytes_next] at h
      exact ⟨h.1, h.2.1⟩
    | clr => trivial
    | encs lw np => trivial
    | encb b =>
      simp only [ownRule, ruleEncb] at h
      rw [tcsAddByte_next] at h
      obtain ⟨hb, hc, h⟩ := h
      refine ⟨hb, hc, fun h2 => ?_⟩
      have h3 := (bc_eq_three b).2 h2
      have hn : charCount 3#2 = 4 := rfl
      rw [if_pos h3, tcsGetChars_next] at h
      obtain ⟨-, hroom⟩ := emitGroup_next h.2
      rcases hroom with hroom | hroom
      · have := congrArg List.length hroom
        simp [h2, hn] at this
      · simpa [h2, hn] using hroom
    | ence =>
      simp only [ownRule, ruleEnce] at h
      obtain ⟨hc, h⟩ := flushGroup_next h
      rw [outAppend_next, hasRoom_flushed] at h
      exact ⟨hc, h.1⟩
    | decs => trivial
    | decc ch =>
      simp only [ownRule, ruleDecc] at h
      simp only [ownFault] at hf
      simp only [Ready]
      cases hcl : classify s.params ch with
      | ws => trivial
      | padCh => trivial
      | bad => simp [hcl] at hf
      | sym v =>
        simp only [hcl] at h hf ⊢
        split at hf <;> simp at hf
        rename_i hp
        rw [if_neg hp, takeSymbol, tcsAddChar_next] at h
        obtain ⟨v', hv', hc, hb, h⟩ := h
        refine ⟨by simpa using hp, hc, hb, fun h3 => ?_⟩
        rw [if_pos ((cc_eq_four v').2 h3), tcsGetBytes_next] at h
        obtain ⟨-, hroom⟩ := outAppendAll_next h.2.2
        have hn : byteCount 4#3 = 3 := rfl
        rcases hroom with hroom | hroom
        · have := congrArg List.length hroom
          simp [h3, hn] at this
        · simpa [h3, hn] using hroom
    | dece =>
      simp only [ownRule, ruleDece] at h
      rw [tcsGetBytes_next] at h
      obtain ⟨hb, hc, h⟩ := h
      obtain ⟨-, hroom⟩ := outAppendAll_next h
      refine ⟨hb, hc, ?_⟩
      rcases hroom with hroom | hroom
      · exact .inl (by simpa using congrArg List.length hroom)
      · exact .inr (by simpa using hroom)

/-- Outside FAULT and outside its MODE, a command raises ARGERR (30_encoding.md R52 step 4). -/
theorem exec_elsewhere {i : Instr} {s : State} (ha : Admitted s) (hf : s.mode ≠ .fault) (hm : s.mode ≠ legalMode i) :
    exec i s = .next (s.faulted .argErr) := by
  rw [exec_eq, legalIn_elsewhere ha hm hf]

/-- In FAULT a command is ignored (60_exceptions.md R92). -/
theorem exec_fault {i : Instr} {s : State} (ha : Admitted s) (hf : s.mode = .fault) :
    exec i s = .next s.noResponse := by
  rw [exec_eq, legalIn_fault ha hf]

theorem exec_admitted {i : Instr} {s t : State} (h : exec i s = .next t) : Admitted s := by
  rw [exec_eq] at h
  exact (legalIn_next.1 h).1

/-- All that a command can do when it answers a next state. -/
theorem exec_next {i : Instr} {s t : State} (h : exec i s = .next t) :
    Admitted s ∧
      ((s.mode = .fault ∧ t = s.noResponse) ∨
        (s.mode ≠ .fault ∧ s.mode ≠ legalMode i ∧ t = s.faulted .argErr) ∨
        (s.mode = legalMode i ∧ ∃ c, ownFault i s = some c ∧ t = s.faulted c) ∨
        (s.mode = legalMode i ∧ ownFault i s = none ∧ Ready i s ∧ t = effect i s)) := by
  have ha := exec_admitted h
  refine ⟨ha, ?_⟩
  by_cases hf : s.mode = .fault
  · rw [exec_fault ha hf] at h
    exact .inl ⟨hf, by simpa [eq_comm] using h⟩
  by_cases hm : s.mode = legalMode i
  · rcases exec_next_here ha hm h with h | h
    · exact .inr (.inr (.inl ⟨hm, h⟩))
    · exact .inr (.inr (.inr ⟨hm, h⟩))
  · rw [exec_elsewhere ha hf hm] at h
    exact .inr (.inl ⟨hf, hm, by simpa [eq_comm] using h⟩)

/-- The fields that no effect changes, and the MODE each leaves. -/
theorem effect_params (i : Instr) (s : State) : (effect i s).params = s.params := by
  cases i <;> simp only [effect, State.flushed] <;> (repeat' split) <;> rfl

theorem effect_host (i : Instr) (s : State) : (effect i s).host = s.host := by
  cases i <;> simp only [effect, State.flushed] <;> (repeat' split) <;> rfl

theorem effect_cause (i : Instr) (s : State) : (effect i s).cause = s.cause := by
  cases i <;> simp only [effect, State.flushed] <;> (repeat' split) <;> rfl

theorem effect_draws (i : Instr) (s : State) : (effect i s).draws = s.draws := by
  cases i <;> simp only [effect, State.flushed] <;> (repeat' split) <;> rfl

theorem ownFault_ne_none {i : Instr} {s : State} {c : Cause} (h : ownFault i s = some c) : c ≠ .none := by
  cases i <;> simp only [ownFault] at h <;> (repeat' split at h) <;> simp_all <;> subst h <;> simp

end Sys2Proof.Machine
end

