-- ==== Sys2Proof/Laws/PerInstr.lean ====
section
/-! SUPPORT. The family EncodingRow: the word of a command selects the command's own row of R44's table. -/

namespace Sys2Proof.Laws.EncodingRow

/-- 30_encoding.md R44: `w AND mask = match` for the word `w` of the command. -/
def Statement (i : Instr) : Prop := selectsRow (encode i) (opcodeRow i) = true

theorem addb (b : Byte) : Statement (.addb b) := by
  have h : ∀ b : Byte, selectsRow (encode (.addb b)) (opcodeRow (.addb b)) = true := by decide
  exact h b

theorem getc : Statement .getc := by unfold Statement; decide

theorem addc (ch : Byte) : Statement (.addc ch) := by
  have h : ∀ b : Byte, selectsRow (encode (.addc b)) (opcodeRow (.addc b)) = true := by decide
  exact h ch

theorem getb : Statement .getb := by unfold Statement; decide

theorem clr : Statement .clr := by unfold Statement; decide

theorem encs (lw np : Bool) : Statement (.encs lw np) := by unfold Statement; revert lw np; decide

theorem encb (b : Byte) : Statement (.encb b) := by
  have h : ∀ b : Byte, selectsRow (encode (.encb b)) (opcodeRow (.encb b)) = true := by decide
  exact h b

theorem ence : Statement .ence := by unfold Statement; decide

theorem decs : Statement .decs := by unfold Statement; decide

theorem decc (ch : Byte) : Statement (.decc ch) := by
  have h : ∀ b : Byte, selectsRow (encode (.decc b)) (opcodeRow (.decc b)) = true := by decide
  exact h ch

theorem dece : Statement .dece := by unfold Statement; decide

end Sys2Proof.Laws.EncodingRow
end

