-- ==== Sys2Proof/Laws/Runs.lean ====
section
/-! SUPPORT. Runs of several commands (30_encoding.md R51), taken apart one command at a time. -/

namespace Sys2Proof.Machine

open Sys2Proof.Safety

@[simp] theorem runs_nil (s : State) (more : List HostAction) : runs s [] more = .next { s with host := more } := rfl

/-- A run whose first command answers `t` is the run of the others from `t`. -/
theorem runs_cons {s t : State} {i : Instr} {acts more : List HostAction} (hd : decode (encode i) = .command i)
    (h : exec i { s with host := acts ++ more } = .next t) (ht : t.host = acts ++ more) :
    runs s (issue i :: acts) more = runs t acts more := by
  have hstep : step { s with host := issue i :: acts ++ more } = .next t := by
    simp only [step, issue, List.cons_append, takeWord, hd]
    exact h
  simp only [runs, List.length_cons, runFor, hstep]
  rw [← ht]

/-- The same for a command that is legal and ready: the run goes on from its effect. -/
theorem runs_effect {s : State} {i : Instr} {acts more : List HostAction} (hd : decode (encode i) = .command i)
    (ha : Admitted s) (hm : s.mode = legalMode i) (hr : Ready i { s with host := acts ++ more }) :
    runs s (issue i :: acts) more = runs (effect i { s with host := acts ++ more }) acts more :=
  runs_cons hd (exec_run ha hm hr) (effect_host _ _)

/-- A run in two parts. -/
theorem runs_append {s t : State} (a b more : List HostAction) (h : runs s a (b ++ more) = .next t)
    (ht : t.host = b ++ more) : runs s (a ++ b) more = runs t b more := by
  have split : ∀ (n m : Nat) (u v : State), runFor n u = .next v → runFor (n + m) u = runFor m v := by
    intro n m
    induction n with
    | zero => intro u v h; cases h; rw [Nat.zero_add]
    | succ n ih =>
      intro u v h
      rw [Nat.succ_add]
      simp only [runFor] at h ⊢
      cases hs : step u with
      | next w => rw [hs] at h; exact ih w v h
      | fault r => rw [hs] at h; cases h
      | refused r => rw [hs] at h; cases h
  simp only [runs] at h ⊢
  rw [List.length_append, List.append_assoc, split _ _ _ _ h, ← ht]

end Sys2Proof.Machine
end

