-- ==== Sys2Proof/Tests/Slice0.lean ====
section
/-! SUPPORT. Tests: the checks on an instance, command words written out from 30_encoding.md R43 to R48, single steps with
the results of 95_test_vectors.md, and a witness for the hypotheses of every obligation that has some. -/

namespace Sys2Proof.Tests

open Sys2Proof Sys2Proof.Machine Sys2Proof.Safety

/-! ## States -/

/-- `MODE = IDLE` with this accumulator. -/
def idleAt (acc : Acc24) (bc : BitVec 2) (cc : BitVec 3) : State := { State.reset with acc := acc, bc := bc, cc := cc }

/-- The parameters with `WIDTH = 8` (programs P4, W1 to W5 of 95_test_vectors.md). -/
def width8 : Params := { Params.default with width := 8 }

/-- A live encode run with `WIDTH = 8` and a capacity of 8. -/
def encAt (acc : Acc24) (bc : BitVec 2) (lw pad : Bool) (col : Nat) (data : List Byte) : State :=
  { State.resetWith width8 with
    acc := acc, bc := bc, mode := .enc, lw := lw, pad := pad, col := col, out := { data := data, cap := 8 } }

/-- A live decode run. -/
def decAt (acc : Acc24) (cc : BitVec 3) (padSeen : Bool) : State :=
  { State.reset with acc := acc, cc := cc, mode := .dec, padSeen := padSeen }

/-- A faulted state. -/
def dead : State := { State.reset with mode := .fault, cause := .protocol }

/-- `s` in an instance whose OUT can hold no byte. -/
def full (s : State) : State := { s with params := { s.params with maxOut := some 0 }, out := OutBuffer.empty 1 }

/-- `s` with these actions of the host pending. -/
def pending (s : State) (h : List HostAction) : State := { s with host := h }

/-! ## Looking at outcomes -/

/-- A part of the next state, if there is one. -/
def look {α : Type} (f : State → α) : Result → Option α
  | .next t => some (f t)
  | .fault _ => none
  | .refused _ => none

/-- The next state, or `s` when there is none. -/
def after (r : Result) (s : State) : State :=
  match r with
  | .next t => t
  | .fault _ => s
  | .refused _ => s

/-- The step that takes the word `w`. -/
def word (w : Nat) (s : State) : Result := step (s.withFetchWord 12 w)

/-- `ACC`, `BC`, `CC` and the response. -/
def tcs (s : State) : Acc24 × BitVec 2 × BitVec 3 × Option Response := (s.acc, s.bc, s.cc, s.rsp)

/-- `MODE`, `CAUSE`, `DONE` and the response. -/
def ends (s : State) : Mode × Cause × Bool × Option Response := (s.mode, s.cause, s.done, s.rsp)

/-- `OUT`'s bytes, `BC` and `COL`. -/
def written (s : State) : List Byte × BitVec 2 × Nat := (s.out.data, s.bc, s.col)

/-! ## The checks on an instance (00_scope.md R5, 43_decoder.md R70, R75) -/

theorem test_default_wf : Params.default.wf = true := by decide
theorem test_width8_wf : width8.wf = true := by decide
theorem test_width_not_multiple_of_4 : ({ Params.default with width := 6 } : Params).widthWf = false := by decide
theorem test_width_zero : ({ Params.default with width := 0 } : Params).wf = false := by decide
theorem test_width_4 : ({ Params.default with width := 4 } : Params).wf = true := by decide
theorem test_ws_without_lf : ({ Params.default with ws := [0x20] } : Params).lfIsWs = false := by decide
theorem test_ws_with_pad_char : ({ Params.default with ws := [0x0A, 0x3D] } : Params).wsDisjoint = false := by decide
theorem test_ws_with_alphabet : ({ Params.default with ws := [0x0A, 0x41] } : Params).wsDisjoint = false := by decide
theorem test_cap0_zero : ({ Params.default with cap0 := 0 } : Params).cap0Wf = false := by decide
theorem test_ill_formed_refused :
    instanceRefusal { Params.default with width := 6 } = some .illFormedParams := by decide
theorem test_strict_refused :
    instanceRefusal { Params.default with padCheck := .strict } = some .strictPadCheck := by decide

/-! ## Command words, bit by bit from R43 (OP in the upper 4 bits, ARG in the lower 8), R44, R46 -/

theorem test_decode_addb : decode 0b000101001101#12 = .command (.addb 0x4D) := by decide
theorem test_decode_getc : decode 0b001000000000#12 = .command .getc := by decide
theorem test_decode_addc : decode 0b001101010100#12 = .command (.addc 0x54) := by decide
theorem test_decode_getb : decode 0b010000000000#12 = .command .getb := by decide
theorem test_decode_clr : decode 0b010100000000#12 = .command .clr := by decide
theorem test_decode_encs_wrap : decode 0b100000000001#12 = .command (.encs true false) := by decide
theorem test_decode_encs_nopad : decode 0b100000000010#12 = .command (.encs false true) := by decide
theorem test_decode_encb : decode 0b100101100001#12 = .command (.encb 0x61) := by decide
theorem test_decode_ence : decode 0b101000000000#12 = .command .ence := by decide
theorem test_decode_decs : decode 0b110000000000#12 = .command .decs := by decide
theorem test_decode_decc : decode 0b110100111101#12 = .command (.decc 0x3D) := by decide
theorem test_decode_dece : decode 0b111000000000#12 = .command .dece := by decide
theorem test_decode_reserved_opcode : decode 0b011011111111#12 = .reservedOpcode 0x6 := by decide
theorem test_decode_reserved_arg : decode 0b100000000100#12 = .reservedArg 0x8 0x04 := by decide
theorem test_no_word_of_13_bits : decodeTableWord 12 0x1500 = none := by decide

/-! ## The alphabet (95_test_vectors.md 2.1) -/

theorem test_enc6 : [0, 25, 26, 51, 52, 61, 62, 63].map (fun v => enc6 (BitVec.ofNat 6 v)) =
    [0x41, 0x5A, 0x61, 0x7A, 0x30, 0x39, 0x2B, 0x2F] := by decide
theorem test_dec6_just_outside : ∀ c ∈ [0x40, 0x5B, 0x60, 0x7B, 0x2A, 0x2C, 0x2E, 0x3A, 0x3D, 0x2D, 0x5F, 0x0A, 0x20,
    0x00, 0x80, 0xFF], dec6 (BitVec.ofNat 8 c) = none := by decide

/-! ## Single steps (95_test_vectors.md, the row each name ends in) -/

theorem test_addb_E1 : look tcs (word 0x161 (idleAt 0x4D0000 1 0)) = some (0x4D6100, 2, 0, some []) := by decide
theorem test_addb_E10 : look ends (word 0x1FF (idleAt 0xFFFFFF 3 0)) = some (.fault, .protocol, false, none) := by decide
theorem test_getc_E2 :
    look tcs (word 0x200 (idleAt 0x4D6100 2 0)) = some (0, 0, 0, some [0x54, 0x57, 0x45]) := by decide
theorem test_getc_E13 : look ends (word 0x200 (idleAt 0x4C0000 0 1)) = some (.fault, .protocol, false, none) := by decide
theorem test_addc_D1 : look tcs (word 0x375 (idleAt 0x4D6140 0 3)) = some (0x4D616E, 0, 4, some []) := by decide
theorem test_addc_D12 : look ends (word 0x341 (idleAt 0 0 4)) = some (.fault, .protocol, false, none) := by decide
theorem test_getb_D3 : look tcs (word 0x400 (idleAt 0x4D6140 0 3)) = some (0, 0, 0, some [0x4D, 0x61]) := by decide
theorem test_getb_D6 : look tcs (word 0x400 (idleAt 0x4C0000 0 1)) = some (0, 0, 0, some []) := by decide
theorem test_clr_E11 : look tcs (word 0x500 (idleAt 0x4D0000 1 0)) = some (0, 0, 0, some []) := by decide
theorem test_clr_E16 : look ends (word 0x501 State.reset) = some (.fault, .argErr, false, none) := by decide
theorem test_encs_P2 : look (fun s => (ends s, s.lw, s.pad)) (word 0x802 State.reset) =
    some ((.enc, .none, false, some []), false, false) := rfl
theorem test_encs_I10 : look ends (word 0x800 (encAt 0 0 false true 0 [])) =
    some (.fault, .argErr, false, none) := by decide
theorem test_encb_P4 : look written (word 0x966 (encAt 0x646500 2 true true 4 [0x59, 0x57, 0x4A, 0x6A])) =
    some ([0x59, 0x57, 0x4A, 0x6A, 0x5A, 0x47, 0x56, 0x6D], 0, 8) := by decide
/-- By the rule R65 at a line of P4 that is full: the break comes before the next group. -/
theorem test_encb_breaks_full_line : look written (word 0x969 (encAt 0x676800 2 true true 8 [])) =
    some ([0x0A, 0x5A, 0x32, 0x68, 0x70], 0, 4) := by decide
theorem test_ence_P4 : look written (word 0xA00 (encAt 0x670000 1 true true 8 [])) =
    some ([0x0A, 0x5A, 0x77, 0x3D, 0x3D, 0x0A], 0, 4) := by decide
theorem test_ence_P2 : look (fun s => (written s, ends s)) (word 0xA00 (encAt 0x4D6100 2 false false 0 [])) =
    some (([0x54, 0x57, 0x45, 0x0A], 0, 0), .idle, .none, true, some []) := rfl
theorem test_decs_P7 : look (fun s => (ends s, s.out.data, s.pad))
    (word 0xC00 { encAt 0 0 false true 0 [0x54, 0x51, 0x3D, 0x3D, 0x0A] with mode := .idle, done := true }) =
    some ((.dec, .none, false, some []), [], true) := rfl
theorem test_decs_I11 : look ends (word 0xC00 (encAt 0 0 false true 0 [])) =
    some (.fault, .argErr, false, none) := by decide
theorem test_decc_A1 : look (fun s => (tcs s, s.out.data)) (word 0xD75 (decAt 0x4D6140 3 false)) =
    some ((0, 0, 0, some []), [0x4D, 0x61, 0x6E]) := rfl
theorem test_decc_P5 : look ends (word 0xD75 (decAt 0x4D6000 2 true)) =
    some (.fault, .invalidInput, false, none) := by decide
theorem test_dece_P3 : look (fun s => (ends s, s.out.data, s.padSeen)) (word 0xE00 (decAt 0x4D6100 3 true)) =
    some ((.idle, .none, true, some []), [0x4D, 0x61], true) := rfl
theorem test_dece_A6 : look (fun s => (ends s, s.out.data)) (word 0xE00 (decAt 0x4C0000 1 false)) =
    some ((.idle, .none, true, some []), []) := rfl
theorem test_fault_absorbs_clr : look ends (word 0x500 dead) = some (.fault, .protocol, false, none) := by decide
theorem test_raw_in_enc_I9 : look ends (word 0x14D (encAt 0 0 false true 0 [])) =
    some (.fault, .argErr, false, none) := by decide
theorem test_reset_leaves_fault : look ends (step (pending dead [.reset])) =
    some (.idle, .none, false, none) := by decide

/-! ## Witnesses: for the hypotheses of each obligation, states and operands that meet them together -/

/-- Whether an outcome is a next state. -/
def isNext (r : Result) : Bool := (look (fun _ => ()) r).isSome

theorem next_of_isNext {r : Result} (s : State) (h : isNext r = true) : r = .next (after r s) := by
  cases r with
  | next t => rfl
  | fault f => cases h
  | refused f => cases h

theorem no_command {w : CmdWord} {op : BitVec 4} (h : decode w = .reservedOpcode op) (i : Instr) :
    decode w ≠ .command i := by
  rw [h]
  exact Decoded.noConfusion

theorem inv_of {s : State} (k : Nat) (ha : s.params.wf = true ∧ s.params.padCheck = .lenient)
    (hf : s.mode = .fault ↔ s.cause ≠ .none) (hd : s.mode = .fault → s.done = false)
    (ht : (s.bc = 0#2 ∨ s.cc = 0#3) ∧ s.cc.toNat ≤ 4 ∧
      (s.cc = 0#3 → ∀ k, k < 24 - 8 * s.bc.toNat → s.acc.getLsbD k = false) ∧
      (s.bc = 0#2 → ∀ k, k < 24 - 6 * s.cc.toNat → s.acc.getLsbD k = false))
    (ho : OutBuffer.len s.out ≤ s.out.cap ∧ s.out.cap = s.params.cap0 * 2 ^ k ∧ hasRoom s 0 = true)
    (hc : s.col ≤ s.params.width)
    (he : s.mode = .enc → s.cc = 0#3 ∧ s.bc.toNat < 3 ∧ s.col % 4 = 0 ∧ (s.lw = false → s.col = 0) ∧
      s.done = false ∧ s.padSeen = false)
    (hdec : s.mode = .dec → s.bc = 0#2 ∧ s.cc.toNat < 4 ∧ s.col = 0 ∧ s.done = false) : Inv s :=
  ⟨ha, hf, hd, fun _ => ⟨ht, ⟨ho.1, ⟨k, ho.2.1⟩, ho.2.2⟩, hc⟩, he, hdec⟩

theorem inv_reset : Inv State.reset :=
  inv_of 0 (by decide) (by decide) (by decide) (by decide) (by decide) (by decide) (by decide) (by decide)
theorem inv_idle_bytes : Inv (idleAt 0x4D616E 3 0) :=
  inv_of 0 (by decide) (by decide) (by decide) (by decide) (by decide) (by decide) (by decide) (by decide)
theorem inv_idle_symbols : Inv (idleAt 0x4D616E 0 4) :=
  inv_of 0 (by decide) (by decide) (by decide) (by decide) (by decide) (by decide) (by decide) (by decide)
theorem inv_enc : Inv (encAt 0x646500 2 true true 8 [0x59, 0x57, 0x4A, 0x6A, 0x5A, 0x47, 0x56, 0x6D]) :=
  inv_of 3 (by decide) (by decide) (by decide) (by decide) (by decide) (by decide) (by decide) (by decide)
theorem inv_dec : Inv (decAt 0x4D6140 3 false) :=
  inv_of 0 (by decide) (by decide) (by decide) (by decide) (by decide) (by decide) (by decide) (by decide)
theorem inv_dead : Inv dead :=
  inv_of 0 (by decide) (by decide) (by decide) (by decide) (by decide) (by decide) (by decide) (by decide)
theorem inv_full_enc (lw pad : Bool) : Inv (full (encAt 0x646500 2 lw pad 0 [])) := by
  cases lw <;> cases pad <;>
    exact inv_of 0 (by decide) (by decide) (by decide) (by decide) (by decide) (by decide) (by decide) (by decide)
theorem inv_full_dec : Inv (full (decAt 0x4D6140 3 false)) :=
  inv_of 0 (by decide) (by decide) (by decide) (by decide) (by decide) (by decide) (by decide) (by decide)

theorem adm_idle (acc : Acc24) (bc : BitVec 2) (cc : BitVec 3) :
    Admitted (idleAt acc bc cc) ∧ (idleAt acc bc cc).mode = .idle := ⟨⟨test_default_wf, rfl⟩, rfl⟩
theorem adm_enc (acc : Acc24) (bc : BitVec 2) (lw pad : Bool) (col : Nat) (data : List Byte) :
    Admitted (encAt acc bc lw pad col data) ∧ (encAt acc bc lw pad col data).mode = .enc := ⟨⟨test_width8_wf, rfl⟩, rfl⟩
theorem adm_dec (acc : Acc24) (cc : BitVec 3) (padSeen : Bool) :
    Admitted (decAt acc cc padSeen) ∧ (decAt acc cc padSeen).mode = .dec := ⟨⟨test_default_wf, rfl⟩, rfl⟩
theorem adm_dead : Admitted dead ∧ dead.mode = .fault := ⟨⟨by decide, rfl⟩, rfl⟩

theorem witness_EncodeOfDecode : decode 0x803#12 = .command (.encs true true) := by decide
theorem witness_WordsSelectDisjointRows : selectsRow 0x803#12 (opcodeRow (.encs false false)) = true ∧
    selectsRow 0x803#12 (opcodeRow (.encs true true)) = true := by decide
theorem witness_AlphabetIsBijection : dec6 0x75#8 = some 46#6 := by decide
theorem witness_CharacterClasses : Params.default.wf = true := test_default_wf
theorem witness_ReservedOpcodesRaiseArgErr :
    0xF#4 ∈ [0x0#4, 0x6#4, 0x7#4, 0xB#4, 0xF#4] ∧ Admitted State.reset ∧ State.reset.mode ≠ .fault :=
  ⟨by decide, inv_reset.1, by decide⟩
/-- Also the hypotheses of every `ReservedArgFaults` clause: the lowest and the highest reserved bit. -/
theorem witness_ReservedArgBitsRaiseArgErr : Admitted State.reset ∧ State.reset.mode ≠ .fault ∧
    (∀ arg ∈ [0x01#8, 0x80#8, 0xFF#8], arg &&& 0xFF#8 ≠ 0) ∧ (∀ arg ∈ [0x04#8, 0x80#8], arg &&& 0xFC#8 ≠ 0) :=
  ⟨inv_reset.1, by decide, by decide, by decide⟩
/-- The hypotheses of the `IllegalElsewhere` clauses: a command of each MODE in another MODE. -/
theorem witness_IllegalElsewhere :
    (Admitted (encAt 0 0 true true 0 []) ∧ (encAt 0 0 true true 0 []).mode ≠ .fault ∧
      ∀ b, (encAt 0 0 true true 0 []).mode ≠ legalMode (.addb b) ∧ (encAt 0 0 true true 0 []).mode ≠ legalMode (.decc b)) ∧
    Admitted State.reset ∧ ∀ b, State.reset.mode ≠ legalMode (.encb b) :=
  ⟨⟨(adm_enc _ _ _ _ _ _).1, by decide, fun _ => ⟨Mode.noConfusion, Mode.noConfusion⟩⟩, inv_reset.1, fun _ => Mode.noConfusion⟩
theorem witness_StepRunsDecodedCommand :
    (pending State.reset [.command 0xC00, .reset]).host = .command 0xC00 :: [.reset] ∧ decode 0xC00 = .command .decs :=
  ⟨rfl, by decide⟩
theorem witness_ChecksComeInOrder : (Admitted dead ∧ dead.mode = .fault) ∧
    (Admitted State.reset ∧ State.reset.mode ≠ .fault ∧ ∀ i, decode 0x0FF#12 ≠ .command i) ∧
    (decode 0x94D#12 = .command (.encb 0x4D) ∧ State.reset.mode ≠ legalMode (.encb 0x4D)) :=
  ⟨adm_dead, ⟨inv_reset.1, by decide, no_command (by decide : _ = Decoded.reservedOpcode 0x0)⟩, by decide⟩
theorem witness_WaitsForTheHost : Admitted State.reset ∧ State.reset.host = [] := ⟨inv_reset.1, rfl⟩
theorem witness_StepTakesOneAction : isNext (step (pending State.reset [.command 0x14D, .reset])) = true := by decide
theorem witness_ResetSetsEveryElement :
    Admitted (pending dead [.reset]) ∧ (pending dead [.reset]).host = .reset :: [] := ⟨adm_dead.1, rfl⟩
theorem witness_UnspecifiedInstancesRefused :
    (State.resetWith { Params.default with padCheck := .strict }).params.padCheck = .strict ∧
    (State.resetWith { Params.default with width := 6 }).params.padCheck = .lenient ∧
    (State.resetWith { Params.default with width := 6 }).params.wf = false := by decide
theorem witness_ArgErrExactly : Admitted State.reset ∧ State.reset.mode ≠ .fault ∧ (∀ i, decode 0x6FF#12 ≠ .command i) ∧
    decode 0xA00#12 = .command .ence ∧ State.reset.mode ≠ legalMode .ence :=
  ⟨inv_reset.1, by decide, no_command (by decide : _ = Decoded.reservedOpcode 0x6), by decide, by decide⟩
theorem witness_ProtocolExactly :
    (Admitted (idleAt 0xFFFFFF 3 0) ∧ ProtocolBroken (.addb 0xFF) (idleAt 0xFFFFFF 3 0)) ∧
    (Admitted (idleAt 0 0 4) ∧ ProtocolBroken (.addc 0x41) (idleAt 0 0 4) ∧ ProtocolBroken .getc (idleAt 0 0 4)) ∧
    Admitted (idleAt 0 1 0) ∧ ProtocolBroken .getb (idleAt 0 1 0) ∧ (idleAt 0 1 0).mode ≠ .fault :=
  ⟨⟨(adm_idle _ _ _).1, Or.inl rfl⟩, ⟨(adm_idle _ _ _).1, Or.inl rfl, by unfold ProtocolBroken; decide⟩,
    (adm_idle _ _ _).1, by unfold ProtocolBroken; decide, by decide⟩
theorem witness_InvalidInputExactly : Admitted (decAt 0 3 false) ∧ (decAt 0 3 false).mode ≠ .fault ∧
    isWS Params.default 0x2D = false ∧ dec6 0x2D = none ∧ Admitted (decAt 0 2 true) ∧ (decAt 0 2 true).padSeen = true :=
  ⟨(adm_dec _ _ _).1, by decide, by decide, by decide, (adm_dec _ _ _).1, rfl⟩
theorem witness_FaultEntrySetsStatus : (idleAt 0xFFFFFF 3 0).mode ≠ .fault ∧
    look (fun t => t.mode) (exec (.addb 0xFF) (idleAt 0xFFFFFF 3 0)) = some .fault := by decide
theorem witness_FaultAbsorbsEveryWord : Admitted (pending dead [.command 0x500]) ∧ (pending dead [.command 0x500]).mode = .fault ∧
    (pending dead [.command 0x500]).host = .command 0x500 :: [] := ⟨adm_dead.1, rfl, rfl⟩
theorem witness_FaultLeftOnlyByReset : (pending dead [.reset]).mode = .fault ∧ isNext (step (pending dead [.reset])) = true ∧
    isNext (step (pending dead [.command 0x500])) = true ∧ isNext (step dead) = true := by decide

theorem witness_StepKeepsInv : (Inv (idleAt 0x4D616E 3 0) ∧ isNext (step (idleAt 0x4D616E 3 0)) = true) ∧
    (Inv (encAt 0x646500 2 true true 8 [0x59, 0x57, 0x4A, 0x6A, 0x5A, 0x47, 0x56, 0x6D])) ∧
    (Inv (decAt 0x4D6140 3 false) ∧ isNext (step (decAt 0x4D6140 3 false)) = true) ∧ Inv dead ∧ isNext (step dead) = true :=
  ⟨⟨inv_idle_bytes, by decide⟩, inv_enc, ⟨inv_dec, by decide⟩, inv_dead, by decide⟩
theorem witness_EveryStepCompletes : Inv (decAt 0x4D6140 3 false) ∧ (decAt 0x4D6140 3 false).params.maxOut = none :=
  ⟨inv_dec, rfl⟩
theorem witness_OnlyExhaustionStops : Inv (full (decAt 0x4D6140 3 false)) := inv_full_dec

/-- ADDB's clauses: `BC` 0 and 2 with room, `BC = 3`, `CC = 1`. -/
theorem witness_AddbFillsNextByteLane : (Admitted (idleAt 0x4D6100 2 0) ∧ (idleAt 0x4D6100 2 0).mode = .idle) ∧
    (idleAt 0x4D6100 2 0).bc ≠ 3#2 ∧ (idleAt 0x4D6100 2 0).cc = 0#3 ∧ (idleAt 0x4D616E 3 0).bc = 3#2 ∧
    (idleAt 0x4C0000 0 1).cc ≠ 0#3 := ⟨adm_idle _ _ _, by decide, by decide, by decide, by decide⟩
/-- GETC's clauses: every `BC`, and `CC = 1`. CLR, ENCS and DECS need no more than the first part. -/
theorem witness_GetcDrainsSymbols :
    ∀ bc, (Admitted (idleAt 0 bc 0) ∧ (idleAt 0 bc 0).mode = .idle) ∧ (idleAt 0 bc 0).cc = 0#3 ∧ (idleAt 0 bc 0).bc = bc ∧
      (idleAt 0 0 1).cc ≠ 0#3 := fun _ => ⟨adm_idle _ _ _, rfl, rfl, by decide⟩
/-- ADDC's clauses: `CC` 0 and 3 with room, `CC = 4`, `BC = 1`, a character outside the alphabet. -/
theorem witness_AddcFillsNextSlot : (Admitted (idleAt 0x4D6140 0 3) ∧ (idleAt 0x4D6140 0 3).mode = .idle) ∧
    (idleAt 0x4D6140 0 3).cc.toNat < 4 ∧ (idleAt 0x4D6140 0 3).bc = 0#2 ∧ dec6 0x75 = some 46#6 ∧
    (idleAt 0 0 4).cc = 4#3 ∧ (idleAt 0 1 0).bc ≠ 0#2 ∧ dec6 0x3D = none :=
  ⟨adm_idle _ _ _, by decide, by decide, by decide, by decide, by decide, by decide⟩
/-- GETB's clauses: every `CC` up to 4, and `BC = 1`. -/
theorem witness_GetbDrainsBytes : (∀ cc, Admitted (idleAt 0 0 cc) ∧ (idleAt 0 0 cc).mode = .idle) ∧
    (∀ cc ∈ [0#3, 1#3, 2#3, 3#3, 4#3], (idleAt 0 0 cc).cc.toNat ≤ 4 ∧ (idleAt 0 0 cc).bc = 0#2) ∧ (idleAt 0 1 0).bc ≠ 0#2 :=
  ⟨fun _ => adm_idle _ _ _, by decide, by decide⟩
theorem witness_RawCommandsTouchOnlyTcs : isRaw .getb = true ∧
    look (fun t => t.mode) (exec .getb (idleAt 0x4D6140 0 3)) = some .idle := by decide
theorem witness_RepackingIsMsbFirst : Inv State.reset ∧ State.reset.mode = .idle := ⟨inv_reset, rfl⟩

/-- ENCB's clauses: `BC` 0 and 1; `BC = 2` on a line that is full, and on one that is not. -/
theorem witness_EncbEncodesOneByte :
    (∀ bc lw col, (Admitted (encAt 0 bc lw true col []) ∧ (encAt 0 bc lw true col []).mode = .enc) ∧
      (encAt 0 bc lw true col []).cc = 0#3 ∧ (encAt 0 bc lw true col []).bc = bc ∧
      hasRoom (encAt 0 bc lw true col []) 5 = true) ∧
    (encAt 0 1 true true 0 []).bc.toNat < 2 ∧ (encAt 0 2 true true 8 []).col = (encAt 0 2 true true 8 []).params.width :=
  ⟨fun _ _ _ => ⟨adm_enc _ _ _ _ _ _, rfl, rfl, rfl⟩, by decide, rfl⟩
/-- ENCE's clauses: `BC` 0, 1 and 2, with and without padding and line break. -/
theorem witness_EnceEndsEncodeRun :
    (∀ bc lw pad col, (Admitted (encAt 0 bc lw pad col []) ∧ (encAt 0 bc lw pad col []).mode = .enc) ∧
      (encAt 0 bc lw pad col []).cc = 0#3 ∧ (encAt 0 bc lw pad col []).bc = bc ∧
      hasRoom (encAt 0 bc lw pad col []) 6 = true) ∧
    (encAt 0x4D0000 1 true true 8 []).acc.extractLsb 7 0 = 0#8 ∧
    (encAt 0x4D0000 1 true true 8 []).acc.extractLsb 15 8 = 0#8 ∧ (encAt 0x4D6100 2 true true 8 []).acc.extractLsb 7 0 = 0#8 :=
  ⟨fun _ _ _ _ => ⟨adm_enc _ _ _ _ _ _, rfl, rfl, rfl⟩, by decide, by decide, by decide⟩
/-- DECC's clauses: whitespace, `=`, a bad character, one after a `=`, an alphabet character at `CC` 2 and 3. -/
theorem witness_DeccDecodesOneCharacter :
    (∀ cc seen, (Admitted (decAt 0 cc seen) ∧ (decAt 0 cc seen).mode = .dec) ∧ (decAt 0 cc seen).padSeen = seen ∧
      (decAt 0 cc seen).bc = 0#2 ∧ (decAt 0 cc seen).cc = cc ∧ hasRoom (decAt 0 cc seen) 3 = true) ∧
    isWS (decAt 0 0 true).params 0x0A = true ∧ isWS (decAt 0 0 true).params 0x2D = false ∧ dec6 0x2D = none ∧
    dec6 0x75 = some 46#6 ∧ (decAt 0 2 false).cc.toNat < 3 :=
  ⟨fun _ _ => ⟨adm_dec _ _ _, rfl, rfl, rfl, rfl⟩, by decide, by decide, by decide, by decide, by decide⟩
/-- DECE's clauses: `CC` 0 to 3. -/
theorem witness_DeceEndsDecodeRun : ∀ cc seen, (Admitted (decAt 0 cc seen) ∧ (decAt 0 cc seen).mode = .dec) ∧
    (decAt 0 cc seen).bc = 0#2 ∧ (decAt 0 cc seen).cc = cc ∧ ∀ n, hasRoom (decAt 0 cc seen) n = true :=
  fun _ _ => ⟨adm_dec _ _ _, rfl, rfl, fun _ => rfl⟩

/-- Also the hypotheses of OutOnlyGrows, BytesPerCommand, ModeTransitions and DoneTransitions. -/
theorem witness_SequencerFrame : isRaw .ence = false ∧ startsRun .ence = false ∧ startsRun .decs = true ∧
    (encAt 0x4D6100 2 true true 8 []).mode ≠ .fault ∧
    look (fun t => t.mode) (exec .ence (encAt 0x4D6100 2 true true 8 [])) = some .idle ∧
    look (fun t => t.mode) (exec .decs State.reset) = some .dec ∧
    look (fun t => t.mode) (exec .ence State.reset) = some .fault := by decide
theorem witness_OutAppendAddsOneByte : (encAt 0 0 true true 0 []).params.maxOut = none ∧ 1 ≤ (encAt 0 0 true true 0 []).out.cap ∧
    OutBuffer.len (encAt 0 0 true true 0 []).out ≤ (encAt 0 0 true true 0 []).out.cap := by decide
/-- The clauses of ENCB and ENCE, with and without padding, of DECC and of DECE. -/
theorem witness_ExhaustedOutputRefused :
    (∀ lw pad, Inv (full (encAt 0x646500 2 lw pad 0 [])) ∧ (full (encAt 0x646500 2 lw pad 0 [])).mode = .enc ∧
      (full (encAt 0x646500 2 lw pad 0 [])).bc = 2#2 ∧ hasRoom (full (encAt 0x646500 2 lw pad 0 [])) 1 = false ∧
      hasRoom (full (encAt 0x646500 2 lw pad 0 [])) 5 = false) ∧
    Inv (full (decAt 0x4D6140 3 false)) ∧ (full (decAt 0x4D6140 3 false)).mode = .dec ∧
    (full (decAt 0x4D6140 3 false)).cc = 3#3 ∧ dec6 0x75 ≠ none ∧ hasRoom (full (decAt 0x4D6140 3 false)) 3 = false ∧
    hasRoom (full (decAt 0x4D6140 3 false)) 2 = false :=
  ⟨fun lw pad => ⟨inv_full_enc lw pad, rfl, rfl, rfl, rfl⟩, inv_full_dec, rfl, rfl, by decide, rfl, rfl⟩
theorem witness_StatusViewFields : 3 < 4 ∧ viewRead State.reset 3 = some 0 ∧ State.reset.mode ≠ .fault ∧
    4 ≤ 4 ∧ viewRead State.reset 4 = none := by decide
theorem witness_RunsEndInTwoWays : Inv (decAt 0x4D6140 3 false) ∧ (decAt 0x4D6140 3 false).mode = .dec ∧
    look (fun t => t.mode) (exec .dece (decAt 0x4D6140 3 false)) = some .idle ∧
    look (fun t => t.mode) (exec (.decc 0x2D) (decAt 0x4D6140 3 false)) = some .fault ∧
    look (fun t => t.mode) (exec (.decc 0x0A) (decAt 0x4D6140 3 false)) = some .dec := ⟨inv_dec, by decide⟩

/-- The hypotheses of EncodeRunState, EncodeRunOutput, RoundTrip and DecodeRunOutcome. -/
theorem witness_EncodeRunState : Inv State.reset ∧ State.reset.mode = .idle ∧ State.reset.params.maxOut = none :=
  ⟨inv_reset, rfl, rfl⟩
theorem witness_DecodeRunState : Inv State.reset ∧ State.reset.mode = .idle ∧ State.reset.params.maxOut = none ∧
    acceptable (withoutWs State.reset.params [0x54, 0x0A, 0x51, 0x3D, 0x3D]) = true := ⟨inv_reset, rfl, rfl, by decide⟩
/-- A text that is accepted (A4), and one that is not (X3). -/
theorem witness_DecodeFailsExactly : Inv State.reset ∧ State.reset.mode = .idle ∧ State.reset.params.maxOut = none ∧
    look (fun t => t.mode) (runs State.reset (decodeProgram [0x54, 0x51, 0x3D, 0x3D]) []) = some .idle ∧
    look (fun t => t.mode) (runs State.reset (decodeProgram [0x3D, 0x41]) []) = some .fault :=
  ⟨inv_reset, rfl, rfl, by decide, by decide⟩
/-- Also the hypotheses of OutputFormat, GroupSizing and OutputLengths: both options, and 0 and 1 leftover bytes. -/
theorem witness_OutputAlphabet : Inv State.reset ∧ State.reset.mode = .idle ∧ State.reset.params.maxOut = none ∧
    ∀ lw np, isNext (runs State.reset (encodeProgram lw np [0x4D]) []) = true ∧
      isNext (runs State.reset (encodeProgram lw np []) []) = true := ⟨inv_reset, rfl, rfl, by decide⟩
theorem witness_DecodedLength : Inv State.reset ∧ State.reset.mode = .idle ∧ State.reset.params.maxOut = none ∧
    look (fun t => t.done) (runs State.reset (decodeProgram [0x54, 0x51]) []) = some true := ⟨inv_reset, rfl, rfl, by decide⟩

end Sys2Proof.Tests
end

/-! # Proofs of the family 10_state.md

A step taken apart once, MODE and DONE after a command, the parts of the invariant per state update, the status view,
then the obligations. -/

namespace Sys2Proof.Proofs.StateFamily

open Sys2Proof Sys2Proof.Machine Sys2Proof.Safety

/-! ## What a step can do -/

/-- The state the block reacts in: `s` with the host's oldest action taken off its list (log entry 1). -/
def taken (s : State) : State := { s with host := s.host.tail }

@[simp] theorem taken_mode (s : State) : (taken s).mode = s.mode := rfl
@[simp] theorem taken_params (s : State) : (taken s).params = s.params := rfl
@[simp] theorem taken_host (s : State) : (taken s).host = s.host.tail := rfl

theorem step_wait {s : State} (h : s.host = []) : step s = waitForHost (taken s) := by
  have hs : taken s = s := by cases s; simp_all [taken]
  rw [hs, step, h]

theorem step_reset {s : State} {rest : List HostAction} (h : s.host = .reset :: rest) :
    step s = takeReset (taken s) := by
  rw [step, taken, h]; rfl

theorem step_command {s : State} {w : CmdWord} {rest : List HostAction} (h : s.host = .command w :: rest) :
    step s = takeWord w (taken s) := by
  rw [step, taken, h]; rfl

/-- 70_reset_and_hazards.md R101: the host's reset is always taken where the parameters are admitted. -/
theorem step_reset_run {s : State} {rest : List HostAction} (ha : Admitted s) (h : s.host = .reset :: rest) :
    step s = .next (taken s).hostReset := by
  rw [step_reset h, takeReset, onInstance_run (s := taken s) ha]

/-- All that a command word can do when it answers a next state: it is ignored in FAULT, it enters FAULT with a cause, or
it is a legal command that is ready and takes effect. -/
theorem takeWord_next {w : CmdWord} {s t : State} (h : takeWord w s = .next t) :
    Admitted s ∧
      ((s.mode = .fault ∧ t = s.noResponse) ∨
        (s.mode ≠ .fault ∧ ∃ c, c ≠ .none ∧ t = s.faulted c) ∨
        ∃ i, decode w = .command i ∧ s.mode = legalMode i ∧ Ready i s ∧ t = effect i s) := by
  unfold takeWord at h
  cases hd : decode w with
  | reservedOpcode _ | reservedArg _ _ =>
    rw [hd] at h
    exact (illegalWord_next.1 h).imp_right (Or.imp_right fun ⟨hf, ht⟩ => .inl ⟨hf, .argErr, by decide, ht⟩)
  | command i =>
    rw [hd] at h
    obtain ⟨ha, hignored | ⟨hf, -, ht⟩ | ⟨hm, c, hc, ht⟩ | ⟨hm, -, hr, ht⟩⟩ := exec_next h
    · exact ⟨ha, .inl hignored⟩
    · exact ⟨ha, .inr (.inl ⟨hf, .argErr, by decide, ht⟩)⟩
    · exact ⟨ha, .inr (.inl ⟨hm ▸ legalMode_ne_fault i, c, ownFault_ne_none hc, ht⟩)⟩
    · exact ⟨ha, .inr (.inr ⟨i, rfl, hm, hr, ht⟩)⟩

/-- All that a step can do when it answers a next state: nothing but drop the response (no action pending, or a word in
FAULT), reset, fault entry, or the effect of a legal command. -/
theorem step_next {s t : State} (h : step s = .next t) :
    Admitted s ∧
      (((s.host = [] ∨ s.mode = .fault) ∧ t = (taken s).noResponse) ∨
        ((∃ rest, s.host = .reset :: rest) ∧ t = (taken s).hostReset) ∨
        (s.mode ≠ .fault ∧ ∃ c, c ≠ .none ∧ t = (taken s).faulted c) ∨
        ∃ w rest i, s.host = .command w :: rest ∧ decode w = .command i ∧ s.mode = legalMode i ∧ Ready i (taken s) ∧
          t = effect i (taken s)) := by
  cases hh : s.host with
  | nil =>
    rw [step_wait hh] at h
    obtain ⟨ha, ht⟩ := onInstance_next.1 h
    cases ht
    exact ⟨ha, .inl ⟨.inl rfl, rfl⟩⟩
  | cons a rest =>
    cases a with
    | reset =>
      rw [step_reset hh] at h
      obtain ⟨ha, ht⟩ := onInstance_next.1 h
      cases ht
      exact ⟨ha, .inr (.inl ⟨⟨rest, rfl⟩, rfl⟩)⟩
    | command w =>
      rw [step_command hh] at h
      obtain ⟨ha, ⟨hf, ht⟩ | hfault | ⟨i, heffect⟩⟩ := takeWord_next h
      · exact ⟨ha, .inl ⟨.inr hf, ht⟩⟩
      · exact ⟨ha, .inr (.inr (.inl hfault))⟩
      · exact ⟨ha, .inr (.inr (.inr ⟨w, rest, i, rfl, heffect⟩))⟩

/-- A command that answers a state outside FAULT was legal and ready, and the state is its effect. -/
theorem exec_completes {i : Instr} {s t : State} (h : exec i s = .next t) (hf : t.mode ≠ .fault) :
    s.mode = legalMode i ∧ Ready i s ∧ t = effect i s := by
  obtain ⟨-, ⟨hm, rfl⟩ | ⟨-, -, rfl⟩ | ⟨-, c, -, rfl⟩ | ⟨hm, -, hr, ht⟩⟩ := exec_next h
  · exact absurd hm hf
  · exact absurd rfl hf
  · exact absurd rfl hf
  · exact ⟨hm, hr, ht⟩

/-! ## MODE and DONE after a command -/

/-- 10_state.md R15: the MODE a command leaves when it completes. -/
def modeAfter : Instr → Mode
  | .encs _ _ => .enc
  | .decs => .dec
  | .ence => .idle
  | .dece => .idle
  | i => legalMode i

/-- 10_state.md R19: DONE after a command that completes, from DONE before it. -/
def doneAfter : Instr → Bool → Bool
  | .ence, _ => true
  | .dece, _ => true
  | .encs _ _, _ => false
  | .decs, _ => false
  | _, d => d

theorem modeAfter_ne_fault (i : Instr) : modeAfter i ≠ .fault := by cases i <;> simp [modeAfter, legalMode]

theorem effect_mode {i : Instr} {s : State} (hm : s.mode = legalMode i) : (effect i s).mode = modeAfter i := by
  cases i with
  | encs lw np | ence | decs | dece => rfl
  | addb b | getc | addc ch | getb | clr => exact hm
  | encb b => simp only [effect]; split <;> exact hm
  | decc ch => simp only [effect]; (repeat' split) <;> exact hm

theorem effect_done (i : Instr) (s : State) : (effect i s).done = doneAfter i s.done := by
  cases i with
  | addb b | getc | addc ch | getb | clr | encs lw np | ence | decs | dece => rfl
  | encb b => simp only [effect]; split <;> rfl
  | decc ch => simp only [effect]; (repeat' split) <;> rfl

theorem effect_ne_fault {i : Instr} {s : State} (hm : s.mode = legalMode i) : (effect i s).mode ≠ .fault :=
  effect_mode hm ▸ modeAfter_ne_fault i

/-! ## The parts of the invariant -/

theorem admitted_cap0 {s : State} (h : Admitted s) : 1 ≤ s.params.cap0 := by
  obtain ⟨hwf, -⟩ := h
  simp only [Params.wf, Bool.and_eq_true] at hwf
  obtain ⟨-, hcap⟩ := hwf
  simpa [Params.cap0Wf] using hcap

theorem admitted_width {s : State} (h : Admitted s) : s.params.width % 4 = 0 ∧ 4 ≤ s.params.width := by
  obtain ⟨hwf, -⟩ := h
  simp only [Params.wf, Bool.and_eq_true] at hwf
  obtain ⟨⟨⟨hwidth, -⟩, -⟩, -⟩ := hwf
  simpa [Params.widthWf] using hwidth

theorem tcsInv_clear {s : State} (ha : s.acc = 0#24) (hb : s.bc = 0#2) (hc : s.cc = 0#3) : TcsInv s := by
  simp [TcsInv, ha, hb, hc]

theorem bc_succ {x : BitVec 2} (h : x.toNat < 3) : (x + 1#2).toNat = x.toNat + 1 := by bv_omega

theorem cc_succ {x : BitVec 3} (h : x.toNat < 4) : (x + 1#3).toNat = x.toNat + 1 := by bv_omega

/-- 10_state.md R14 item 2: the lane filled next lies just above the zero tail. -/
theorem tcsInv_putByte {s : State} (h : TcsInv s) (hb : s.bc.toNat < 3) (hc : s.cc = 0#3) (b : Byte) :
    TcsInv (s.putByte b) := by
  obtain ⟨-, -, htail, -⟩ := h
  have hbc : (s.putByte b).bc.toNat = s.bc.toNat + 1 := bc_succ hb
  refine ⟨.inr hc, by simp [hc], fun _ k hk => ?_, fun h0 => ?_⟩
  · rw [State.putByte_acc, writeField_getLsbD _ _ _ _ (by omega), if_neg (by unfold laneLow; omega)]
    exact htail hc k (by omega)
  · rw [h0] at hbc
    simp at hbc

/-- 10_state.md R14 item 3: the slot filled next lies just above the zero tail. -/
theorem tcsInv_putSym {s : State} (h : TcsInv s) (hc : s.cc.toNat < 4) (hb : s.bc = 0#2) (v : Sym6) :
    TcsInv (s.putSym v) := by
  obtain ⟨-, -, -, htail⟩ := h
  have hcc : (s.putSym v).cc.toNat = s.cc.toNat + 1 := cc_succ hc
  refine ⟨.inl hb, by omega, fun h0 => ?_, fun _ k hk => ?_⟩
  · rw [h0] at hcc
    simp at hcc
  · rw [State.putSym_acc, writeField_getLsbD _ _ _ _ (by omega), if_neg (by unfold slotLow; omega)]
    exact htail hb k (by omega)

theorem outInv_empty {s : State} (h : s.out = OutBuffer.empty s.params.cap0) : OutInv s := by
  rw [outInv_iff, h, hasRoom_iff]
  exact ⟨OutBuffer.empty_wf _, fun m _ => by simp [h]⟩

/-- 20_memory.md R30, R41: appending bytes that fit keeps the buffer's form and bound. -/
theorem outInv_pushAll {s : State} {bs : List Byte} (ha : Admitted s) (h : OutInv s)
    (hroom : hasRoom s bs.length = true) : OutInv (s.pushAll bs) := by
  rw [outInv_iff] at h ⊢
  obtain ⟨hwf, -⟩ := h
  exact ⟨OutBuffer.foldl_push_wf (admitted_cap0 ha) bs hwf, by rw [hasRoom_pushAll]; exact hroom⟩

/-- 42_encoder.md R65: the break and the group are appended together. -/
theorem outInv_emitted {s : State} {g : List Byte} (ha : Admitted s) (h : OutInv s)
    (hroom : hasRoom s ((wrapBreak s).length + g.length) = true) : OutInv (s.emitted g) :=
  outInv_pushAll (bs := wrapBreak s ++ g) ha h (by rwa [List.length_append])

/-- 42_encoder.md R65: a group starts on a line with room for it. -/
theorem startCol_room {s : State} (ha : Admitted s) (hcol : s.col ≤ s.params.width) (h4 : s.col % 4 = 0)
    (hlw : s.lw = false → s.col = 0) :
    startCol s % 4 = 0 ∧ startCol s + 4 ≤ s.params.width ∧ (s.lw = false → startCol s = 0) := by
  obtain ⟨hw4, hw⟩ := admitted_width ha
  unfold startCol
  split
  · exact ⟨rfl, by omega, fun _ => rfl⟩
  · cases hl : s.lw with
    | false => exact ⟨h4, by have := hlw hl; omega, fun _ => hlw hl⟩
    | true =>
      have : s.col ≠ s.params.width := by simp_all
      exact ⟨h4, by omega, nofun⟩

/-- COL after a group of at most 4 characters: within the line, and 0 as long as LW = 0 (R65, 10_state.md R17). -/
theorem emitted_col_bound {s : State} {g : List Byte} (ha : Admitted s) (hcol : s.col ≤ s.params.width)
    (h4 : s.col % 4 = 0) (hlw : s.lw = false → s.col = 0) (hg : g.length ≤ 4) :
    (s.emitted g).col ≤ s.params.width ∧ (s.lw = false → (s.emitted g).col = 0) := by
  obtain ⟨-, hroom, hzero⟩ := startCol_room ha hcol h4 hlw
  cases hl : s.lw <;> simp [hl] at hzero ⊢ <;> omega

/-! ## The invariant in each MODE -/

/-- What the invariant says in every MODE but FAULT. -/
structure LiveInv (s : State) : Prop where
  admitted : Admitted s
  cause : s.cause = .none
  tcs : TcsInv s
  out : OutInv s
  col : s.col ≤ s.params.width

theorem inv_iff_live {s : State} (hf : s.mode ≠ .fault) :
    Inv s ↔ LiveInv s ∧ (s.mode = .enc → EncInv s) ∧ (s.mode = .dec → DecInv s) := by
  constructor
  · rintro ⟨ha, hcause, -, hlive, henc, hdec⟩
    obtain ⟨ht, ho, hcol⟩ := hlive hf
    exact ⟨⟨ha, by simpa [hf] using hcause, ht, ho, hcol⟩, henc, hdec⟩
  · rintro ⟨⟨ha, hcause, ht, ho, hcol⟩, henc, hdec⟩
    exact ⟨ha, by simp [hf, hcause], fun h => absurd h hf, fun _ => ⟨ht, ho, hcol⟩, henc, hdec⟩

theorem inv_idle_iff {s : State} (hm : s.mode = .idle) : Inv s ↔ LiveInv s := by
  rw [inv_iff_live (by simp [hm])]; simp [hm]

theorem inv_enc_iff {s : State} (hm : s.mode = .enc) : Inv s ↔ LiveInv s ∧ EncInv s := by
  rw [inv_iff_live (by simp [hm])]; simp [hm]

theorem inv_dec_iff {s : State} (hm : s.mode = .dec) : Inv s ↔ LiveInv s ∧ DecInv s := by
  rw [inv_iff_live (by simp [hm])]; simp [hm]

theorem inv_faulted {s : State} {c : Cause} (ha : Admitted s) (hc : c ≠ .none) : Inv (s.faulted c) :=
  ⟨ha, by simp [hc], fun _ => rfl, fun hf => absurd rfl hf, nofun, nofun⟩

theorem inv_hostReset {s : State} (ha : Admitted s) : Inv s.hostReset :=
  (inv_idle_iff rfl).2 ⟨ha, rfl, tcsInv_clear rfl rfl rfl, outInv_empty rfl, Nat.zero_le _⟩

theorem liveInv_withResponse {s : State} (h : LiveInv s) (r : Response) : LiveInv (s.withResponse r) := { h with }

theorem liveInv_endRun {s : State} (h : LiveInv s) : LiveInv s.endRun := { h with }

theorem liveInv_putByte {s : State} (h : LiveInv s) (hb : s.bc.toNat < 3) (hc : s.cc = 0#3) (b : Byte) :
    LiveInv (s.putByte b) := { h with tcs := tcsInv_putByte h.tcs hb hc b }

theorem liveInv_putSym {s : State} (h : LiveInv s) (hc : s.cc.toNat < 4) (hb : s.bc = 0#2) (v : Sym6) :
    LiveInv (s.putSym v) := { h with tcs := tcsInv_putSym h.tcs hc hb v }

theorem liveInv_clearTcs {s : State} (h : LiveInv s) : LiveInv s.clearTcs :=
  { h with tcs := tcsInv_clear rfl rfl rfl }

theorem liveInv_startRun {s : State} (h : LiveInv s) (m : Mode) : LiveInv (s.startRun m) :=
  ⟨h.admitted, h.cause, tcsInv_clear rfl rfl rfl, outInv_empty rfl, Nat.zero_le _⟩

theorem liveInv_pushAll {s : State} (h : LiveInv s) {bs : List Byte} (hroom : hasRoom s bs.length = true) :
    LiveInv (s.pushAll bs) :=
  { h with out := outInv_pushAll h.admitted h.out hroom }

theorem liveInv_emitted {s : State} {g : List Byte} (h : LiveInv s) (he : EncInv s) (hg : g.length ≤ 4)
    (hroom : hasRoom s ((wrapBreak s).length + g.length) = true) : LiveInv (s.emitted g) := by
  obtain ⟨-, -, h4, hlw, -, -⟩ := he
  exact { h with
    out := outInv_emitted h.admitted h.out hroom
    col := (emitted_col_bound h.admitted h.col h4 hlw hg).1 }

theorem encInv_clearTcs {s : State} (h : EncInv s) : EncInv s.clearTcs := by
  obtain ⟨-, -, hrest⟩ := h
  exact ⟨rfl, Nat.zero_lt_succ _, hrest⟩

/-- A full group of 4 characters leaves a live encode run (42_encoder.md R69). -/
theorem encInv_emitted {s : State} {g : List Byte} (h : LiveInv s) (he : EncInv s) (hg : g.length = 4) :
    EncInv (s.emitted g) := by
  obtain ⟨hcc, hbc, h4, hlw, hdone, hseen⟩ := he
  obtain ⟨hmod, -, -⟩ := startCol_room h.admitted h.col h4 hlw
  refine ⟨hcc, hbc, ?_, (emitted_col_bound h.admitted h.col h4 hlw hg.le).2, hdone, hseen⟩
  rw [State.emitted_col, hg]
  split <;> omega

theorem padGroup_heldChars_length_le (pad : Bool) (s : State) : (padGroup pad (heldChars s)).length ≤ 4 := by
  have hcount : ∀ x : BitVec 2, charCount x ≤ 4 := by decide
  have hle : (heldChars s).length ≤ 4 := by rw [heldChars_length]; exact hcount s.bc
  rw [padGroup_length _ _ hle]
  split
  · exact le_rfl
  · exact hle

/-- The flush of a partial group (42_encoder.md R68) keeps what the invariant says in every MODE but FAULT. -/
theorem liveInv_flushed {s : State} (h : LiveInv s) (he : EncInv s) (hroom : hasRoom s (flushLength s) = true) :
    LiveInv s.flushed := by
  unfold State.flushed
  unfold flushLength at hroom
  split at hroom
  · rwa [if_pos ‹_›]
  · rw [if_neg ‹_›]
    exact liveInv_emitted (liveInv_clearTcs h) (encInv_clearTcs he) (padGroup_heldChars_length_le _ _) hroom

/-! ## A full group is drained -/

@[simp] theorem clearTcs_putByte (s : State) (b : Byte) : (s.putByte b).clearTcs = s.clearTcs := rfl

@[simp] theorem clearTcs_putSym (s : State) (v : Sym6) : (s.putSym v).clearTcs = s.clearTcs := rfl

theorem heldChars_putByte_length {s : State} (h : s.bc = 2#2) (b : Byte) : (heldChars (s.putByte b)).length = 4 := by
  rw [heldChars_length, (bc_eq_three b).2 h]
  rfl

theorem heldBytes_putSym_length {s : State} (h : s.cc = 3#3) (v : Sym6) : (heldBytes (s.putSym v)).length = 3 := by
  rw [heldBytes_length, (cc_eq_four v).2 h]
  rfl

/-! ## Each command keeps the invariant -/

/-- A command that completes keeps what the invariant says in every MODE but FAULT. -/
theorem liveInv_effect {i : Instr} {s : State} (h : Inv s) (hm : s.mode = legalMode i) (hr : Ready i s) :
    LiveInv (effect i s) := by
  have hlive := ((inv_iff_live (hm ▸ legalMode_ne_fault i)).1 h).1
  cases i with
  | addb b =>
    obtain ⟨hbc, hcc⟩ := hr
    exact liveInv_withResponse (liveInv_putByte hlive hbc hcc b) _
  | addc ch =>
    obtain ⟨-, hcc, hbc⟩ := hr
    exact liveInv_withResponse (liveInv_putSym hlive hcc hbc _) _
  | getc | getb | clr => exact liveInv_withResponse (liveInv_clearTcs hlive) _
  | encs lw np => exact { liveInv_startRun hlive .enc with }
  | decs => exact liveInv_withResponse (liveInv_startRun hlive .dec) _
  | encb b =>
    obtain ⟨-, henc⟩ := (inv_enc_iff hm).1 h
    obtain ⟨hbc, hcc, hroom⟩ := hr
    simp only [effect, clearTcs_putByte]
    split
    next h2 =>
      have hlen := heldChars_putByte_length h2 b
      exact liveInv_withResponse (liveInv_emitted (liveInv_clearTcs hlive) (encInv_clearTcs henc) hlen.le
        (hlen ▸ hroom h2)) _
    next => exact liveInv_withResponse (liveInv_putByte hlive hbc hcc b) _
  | ence =>
    obtain ⟨-, henc⟩ := (inv_enc_iff hm).1 h
    obtain ⟨-, hroom⟩ := hr
    have hflush := liveInv_flushed hlive henc (hasRoom_mono (Nat.le_succ _) hroom)
    rw [← hasRoom_flushed] at hroom
    exact liveInv_withResponse (liveInv_endRun (liveInv_pushAll (bs := [lf]) hflush hroom)) _
  | decc ch =>
    simp only [effect, Ready, clearTcs_putSym] at hr ⊢
    cases hcl : classify s.params ch with
    | ws => exact liveInv_withResponse hlive _
    | padCh => exact { hlive with }
    | bad => exact hlive
    | sym v =>
      simp only [hcl] at hr ⊢
      obtain ⟨-, hcc, hbc, hroom⟩ := hr
      split
      next h3 =>
        have hlen := heldBytes_putSym_length h3 v
        exact liveInv_withResponse (liveInv_pushAll (liveInv_clearTcs hlive) (hlen ▸ hroom h3)) _
      next => exact liveInv_withResponse (liveInv_putSym hlive hcc hbc v) _
  | dece =>
    obtain ⟨-, -, hroom⟩ := hr
    have hfits : hasRoom s.clearTcs (heldBytes s).length = true := by
      rw [heldBytes_length, hasRoom_clearTcs]
      rcases hroom with h0 | hroom
      · obtain ⟨-, -, hempty⟩ := hlive.out
        rwa [h0]
      · exact hroom
    exact liveInv_withResponse (liveInv_endRun (liveInv_pushAll (liveInv_clearTcs hlive) hfits)) _

/-- 42_encoder.md R69: a command that leaves MODE = ENC leaves the state of a live encode run. -/
theorem encInv_effect {i : Instr} {s : State} (h : Inv s) (hm : s.mode = legalMode i) (hr : Ready i s)
    (hi : modeAfter i = .enc) : EncInv (effect i s) := by
  cases i with
  | encs lw np => exact ⟨rfl, Nat.zero_lt_succ _, rfl, fun _ => rfl, rfl, rfl⟩
  | encb b =>
    obtain ⟨hlive, henc⟩ := (inv_enc_iff hm).1 h
    obtain ⟨hbc, hcc, -⟩ := hr
    simp only [effect, clearTcs_putByte]
    split
    next h2 =>
      exact encInv_emitted (s := s.clearTcs) (liveInv_clearTcs hlive) (encInv_clearTcs henc) (heldChars_putByte_length h2 b)
    next h2 =>
      have hne : (s.putByte b).bc ≠ 3#2 := mt (bc_eq_three b).1 h2
      obtain ⟨-, -, hrest⟩ := henc
      exact ⟨hcc, bc_lt_three.2 hne, hrest⟩
  | addb _ | getc | addc _ | getb | clr | ence | decs | decc _ | dece => cases hi

/-- 43_decoder.md R76: a command that leaves MODE = DEC leaves the state of a live decode run. -/
theorem decInv_effect {i : Instr} {s : State} (h : Inv s) (hm : s.mode = legalMode i) (hr : Ready i s)
    (hi : modeAfter i = .dec) : DecInv (effect i s) := by
  cases i with
  | decs => exact ⟨rfl, Nat.zero_lt_succ _, rfl, rfl⟩
  | decc ch =>
    obtain ⟨-, hdec⟩ := (inv_dec_iff hm).1 h
    simp only [effect, Ready, clearTcs_putSym] at hr ⊢
    cases hcl : classify s.params ch with
    | ws | padCh | bad => exact hdec
    | sym v =>
      simp only [hcl] at hr ⊢
      obtain ⟨-, hcc, hbc, -⟩ := hr
      obtain ⟨-, -, hrest⟩ := hdec
      split
      next => exact ⟨rfl, Nat.zero_lt_succ _, hrest⟩
      next h3 =>
        have hne : s.cc.toNat ≠ 3 := fun h' => h3 (BitVec.eq_of_toNat_eq h')
        have hsucc : (s.putSym v).cc.toNat = s.cc.toNat + 1 := cc_succ hcc
        exact ⟨hbc, show (s.putSym v).cc.toNat < 4 by omega, hrest⟩
  | addb _ | getc | addc _ | getb | clr | ence | encs _ _ | encb _ | dece => cases hi

theorem inv_effect {i : Instr} {s : State} (h : Inv s) (hm : s.mode = legalMode i) (hr : Ready i s) :
    Inv (effect i s) :=
  (inv_iff_live (effect_ne_fault hm)).2 ⟨liveInv_effect h hm hr,
    fun he => encInv_effect h hm hr ((effect_mode hm).symm.trans he),
    fun hd => decInv_effect h hm hr ((effect_mode hm).symm.trans hd)⟩

/-! ## The status view -/

theorem modeCode_eq (m : Mode) :
    m.code = match m with | .idle => 0#2 | .enc => 1#2 | .dec => 2#2 | .fault => 3#2 := by
  cases m <;> rfl

theorem causeCode_eq (c : Cause) :
    c.code = match c with | .none => 0#2 | .argErr => 1#2 | .invalidInput => 2#2 | .protocol => 3#2 := by
  cases c <;> rfl

theorem cfgView_fields (s : State) :
    (cfgView s).getLsbD 0 = s.lw ∧ (cfgView s).getLsbD 1 = s.pad ∧ (cfgView s).extractLsb' 2 6 = 0#6 := by
  unfold cfgView
  simp (disch := decide) only [BitVec.getLsbD_append, BitVec.extractLsb'_append_eq_of_le]
  simp

theorem statusView_fields (s : State) :
    (statusView s).extractLsb' 0 2 = s.mode.code ∧ (statusView s).getLsbD 2 = s.done ∧
      (statusView s).getLsbD 3 = s.padSeen ∧ (statusView s).extractLsb' 4 2 = s.bc ∧
      (statusView s).extractLsb' 6 3 = s.cc ∧ (statusView s).extractLsb' 9 7 = 0#7 := by
  unfold statusView
  simp (disch := decide) only [BitVec.getLsbD_append, BitVec.extractLsb'_append_eq_of_add_le,
    BitVec.extractLsb'_append_eq_of_le]
  simp [BitVec.extractLsb'_eq_self]

theorem causeView_fields (s : State) :
    (causeView s).extractLsb' 0 2 = s.cause.code ∧ (causeView s).extractLsb' 2 6 = 0#6 :=
  ⟨BitVec.extractLsb'_append_eq_right, BitVec.extractLsb'_append_eq_left⟩

theorem viewRead_of_four_le (s : State) {n : Nat} (h : 4 ≤ n) : viewRead s n = none := by
  obtain ⟨m, rfl⟩ := Nat.exists_eq_add_of_le' h
  rfl

/-! ## The obligations -/

/-- Settles O22, by what a step can do: it leaves every element as it was, resets, enters FAULT, or runs a command. -/
theorem stepKeepsInv : Obligations.StepKeepsInv := by
  intro s t h hstep
  obtain ⟨ha, ⟨-, rfl⟩ | ⟨-, rfl⟩ | ⟨-, c, hc, rfl⟩ | ⟨-, -, i, -, -, hm, hr, rfl⟩⟩ := step_next hstep
  · exact h
  · exact inv_hostReset ha
  · exact inv_faulted ha hc
  · exact inv_effect h hm hr

/-- Settles O12, from what a step can do. -/
theorem stepTakesOneAction : Obligations.StepTakesOneAction := by
  intro s t h
  obtain ⟨-, ⟨-, rfl⟩ | ⟨-, rfl⟩ | ⟨-, c, -, rfl⟩ | ⟨-, -, i, -, -, -, -, rfl⟩⟩ := step_next h
  · exact ⟨rfl, rfl⟩
  · exact ⟨rfl, rfl⟩
  · exact ⟨rfl, rfl⟩
  · exact ⟨effect_host i _, effect_params i _⟩

/-- Settles O43, from the MODE each effect leaves. -/
theorem modeTransitions : Obligations.ModeTransitions := by
  refine ⟨fun i s t h _ hf => ?_, fun i s t h hf => ?_, fun s rest ha hh => ⟨_, step_reset_run ha hh, rfl⟩⟩
  · obtain ⟨hm, -, rfl⟩ := exec_completes h hf
    refine ⟨hm, ?_⟩
    have hafter := effect_mode hm
    cases i <;> exact hafter
  · rw [exec_fault (exec_admitted h) hf] at h
    cases h
    exact hf

/-- Settles O44, from the DONE each effect leaves. -/
theorem doneTransitions : Obligations.DoneTransitions := by
  refine ⟨fun i s t h hs => ⟨fun hf => ?_, fun hf => ?_⟩, fun s rest ha hh => ⟨_, step_reset_run ha hh, rfl⟩⟩
  · obtain ⟨-, ⟨hm, -⟩ | ⟨-, -, rfl⟩ | ⟨-, c, -, rfl⟩ | ⟨hm, -, -, rfl⟩⟩ := exec_next h
    · exact absurd hm hs
    · rfl
    · rfl
    · exact absurd hf (effect_ne_fault hm)
  · obtain ⟨-, -, rfl⟩ := exec_completes h hf
    have hafter := effect_done i s
    cases i <;> exact hafter

/-- Settles O7, from the alphabet's bijection laws. -/
theorem alphabetIsBijection : Obligations.AlphabetIsBijection :=
  ⟨by decide, dec6_enc6, enc6_of_dec6⟩

/-- Settles O13: reset is taken in every MODE, and each element has its value by State.hostReset. -/
theorem resetSetsEveryElement : Obligations.ResetSetsEveryElement := by
  intro s rest ha hh
  refine ⟨_, step_reset_run ha hh, ?_⟩
  simp [hh]

/-- Settles O21: State.reset is what the host's reset makes of it. -/
theorem resetMeetsInv : Obligations.ResetMeetsInv :=
  inv_hostReset (s := State.reset) ⟨by decide, rfl⟩

/-- Settles O45, register by register. -/
theorem statusViewFields : Obligations.StatusViewFields := by
  refine ⟨fun n hn => ?_, fun s => ?_⟩
  · interval_cases n <;> rfl
  obtain ⟨hmode, hdone, hseen, hbc, hcc, hreserved⟩ := statusView_fields s
  obtain ⟨hcause, hcauseReserved⟩ := causeView_fields s
  exact ⟨⟨hmode.trans (modeCode_eq _), hdone, hcause.trans (causeCode_eq _)⟩,
    fun _ => ⟨cfgView_fields s, ⟨hseen, hbc, hcc, hreserved⟩, hcauseReserved, rfl⟩,
    rfl, rfl, rfl, fun _ => viewRead_of_four_le s⟩

end Sys2Proof.Proofs.StateFamily

/-! # Proofs of the family 20_memory.md

The bytes a command appends to OUT and its response, said once per command; what a command does from a state of the
invariant when they fit and when they do not; the packing of the accumulator; then the obligations. -/

namespace Sys2Proof.Proofs.MemoryFamily

open Sys2Proof Sys2Proof.Machine Sys2Proof.Safety Sys2Proof.Proofs.StateFamily

/-! ## What a command appends and answers -/

/-- The bytes that a command which completes, and starts no run, appends to OUT. -/
def appended : Instr → State → List Byte
  | .encb b, s => if s.bc = 2#2 then wrapBreak s ++ heldChars (s.putByte b) else []
  | .ence, s => (if s.bc = 0#2 then [] else wrapBreak s ++ padGroup s.pad (heldChars s)) ++ [lf]
  | .decc ch, s =>
    match classify s.params ch with
    | .ws => []
    | .padCh => []
    | .bad => []
    | .sym v => if s.cc = 3#3 then heldBytes (s.putSym v) else []
  | .dece, s => heldBytes s
  | _, _ => []

/-- The response of a command that completes. -/
def response : Instr → State → Response
  | .getc, s => heldChars s
  | .getb, s => heldBytes s
  | _, _ => []

theorem flushed_data (s : State) :
    s.flushed.out.data = s.out.data ++ if s.bc = 0#2 then [] else wrapBreak s ++ padGroup s.pad (heldChars s) := by
  unfold State.flushed
  split <;> simp

/-- 20_memory.md R31: OUT after a command is OUT before it and the bytes the command appends. -/
theorem effect_data {i : Instr} (hi : startsRun i = false) (s : State) :
    (effect i s).out.data = s.out.data ++ appended i s := by
  cases i with
  | addb b | getc | addc ch | getb | clr => exact (List.append_nil _).symm
  | encs lw np | decs => cases hi
  | encb b => simp only [effect, appended]; split <;> simp
  | ence => simp [effect, appended, flushed_data]
  | decc ch =>
    simp only [effect, appended]
    cases classify s.params ch with
    | ws | padCh | bad => exact (List.append_nil _).symm
    | sym v => dsimp only; split <;> simp
  | dece => simp [effect, appended]

theorem effect_startsRun {i : Instr} (hi : startsRun i = true) (s : State) : (effect i s).out.data = [] := by
  cases i with
  | encs lw np | decs => rfl
  | addb _ | getc | addc _ | getb | clr | encb _ | ence | decc _ | dece => cases hi

theorem effect_rsp {i : Instr} {s : State} (hr : Ready i s) : (effect i s).rsp = some (response i s) := by
  cases i with
  | addb b | getc | addc ch | getb | clr | encs lw np | ence | decs | dece => rfl
  | encb b => simp only [effect]; split <;> rfl
  | decc ch =>
    simp only [effect, Ready] at hr ⊢
    cases hcl : classify s.params ch with
    | ws | padCh => rfl
    | bad => simp [hcl] at hr
    | sym v => dsimp only; split <;> rfl

/-! ## Their numbers -/

theorem wrapBreak_length (s : State) :
    (wrapBreak s).length = if s.lw = true ∧ s.col = s.params.width then 1 else 0 := by
  unfold wrapBreak
  split <;> rfl

theorem charCount_mem (x : BitVec 2) : charCount x ∈ [0, 2, 3, 4] := by revert x; decide

theorem byteCount_mem (x : BitVec 3) : byteCount x ∈ [0, 1, 2, 3] := by revert x; decide

/-- 40_core_encode.md R57: `BC` bytes need one symbol more than bytes. -/
theorem charCount_eq {x : BitVec 2} (h : x ≠ 0#2) : charCount x = x.toNat + 1 := by revert x; decide

/-- 41_core_decode.md R62: `CC` symbols hold one byte less than symbols. -/
theorem byteCount_eq {x : BitVec 3} (h : x.toNat ≤ 4) : byteCount x = x.toNat - 1 := by revert x; decide

theorem appended_encb_length (b : Byte) (s : State) :
    (appended (.encb b) s).length = if s.bc = 2#2 then (wrapBreak s).length + 4 else 0 := by
  simp only [appended]
  split
  next h => rw [List.length_append, heldChars_putByte_length h]
  next => rfl

theorem appended_ence_length (s : State) : (appended .ence s).length = flushLength s + 1 := by
  simp only [appended, flushLength, List.length_append, List.length_singleton]
  split <;> simp

theorem appended_decc_length {ch : Byte} {s : State} {v : Sym6} (h : classify s.params ch = .sym v) :
    (appended (.decc ch) s).length = if s.cc = 3#3 then 3 else 0 := by
  simp only [appended, h]
  split
  next h3 => exact heldBytes_putSym_length h3 v
  next => rfl

theorem appended_decc_length_mem (ch : Byte) (s : State) : (appended (.decc ch) s).length ∈ [0, 3] := by
  cases hcl : classify s.params ch with
  | ws | padCh | bad => simp [appended, hcl]
  | sym v => rw [appended_decc_length hcl]; split <;> decide

theorem appended_dece_length (s : State) : (appended .dece s).length = byteCount s.cc := heldBytes_length s

/-- 42_encoder.md R68, R65: the flush of a partial group, with the break before it. -/
theorem flushLength_eq (s : State) :
    flushLength s = if s.bc = 0#2 then 0 else
      (if s.lw = true ∧ s.col = s.params.width then 1 else 0) + if s.pad then 4 else s.bc.toNat + 1 := by
  unfold flushLength
  split
  next => rfl
  next hb =>
    have hle : (heldChars s).length ≤ 4 := by rw [heldChars_length, charCount_eq hb]; omega
    rw [wrapBreak_length, padGroup_length _ _ hle, heldChars_length, charCount_eq hb]

/-- 20_memory.md R36: what ENCE may append before the trailing LF. -/
theorem flushLength_mem (s : State) : flushLength s ∈ [0, 2, 3, 4, 5] := by
  rw [flushLength_eq]
  generalize s.bc = x
  split_ifs <;> revert x <;> decide

/-! ## The class of a symbol -/

/-- 43_decoder.md R70: where the parameters are well formed, the symbols are the bytes of the alphabet. -/
theorem classify_eq_sym {p : Params} (hp : p.wf = true) {ch : Byte} {v : Sym6} :
    classify p ch = .sym v ↔ dec6 ch = some v := by
  have hdisjoint : p.wsDisjoint = true := by
    simp only [Params.wf, Bool.and_eq_true] at hp
    obtain ⟨⟨-, hdisjoint⟩, -⟩ := hp
    exact hdisjoint
  constructor
  · intro h
    unfold classify at h
    (repeat' split at h) <;> simp_all
  · intro h
    have hws : isWS p ch = false := by
      by_contra hc
      have hmem : ch ∈ p.ws := by simpa [isWS] using hc
      have := List.all_eq_true.1 hdisjoint ch hmem
      simp [h] at this
    have hpad : ch ≠ padChar := by
      rintro rfl
      simp at h
    simp [classify, hws, hpad, h]

/-! ## A command that fits, and one that does not -/

theorem inv_admitted {s : State} (h : Inv s) : Admitted s := h.1

theorem inv_wf {s : State} (h : Inv s) : s.params.wf = true := h.1.1

theorem hasRoom_zero {s : State} (h : Inv s) (hf : s.mode ≠ .fault) : hasRoom s 0 = true := by
  obtain ⟨hlive, -⟩ := (inv_iff_live hf).1 h
  obtain ⟨-, -, hroom⟩ := hlive.out
  exact hroom

/-- From a state of the invariant, a command in its MODE that raises no fault and whose bytes fit is ready: no
micro-operation is called outside its precondition. -/
theorem ready_of_inv {i : Instr} {s : State} (h : Inv s) (hm : s.mode = legalMode i) (hown : ownFault i s = none)
    (hroom : hasRoom s (appended i s).length = true) : Ready i s := by
  obtain ⟨hlive, -, -⟩ := (inv_iff_live (hm ▸ legalMode_ne_fault i)).1 h
  obtain ⟨-, hcc4, -, -⟩ := hlive.tcs
  cases i with
  | clr | encs lw np | decs => trivial
  | addb b =>
    simp only [ownFault, ite_eq_right_iff, reduceCtorEq, imp_false, not_or, not_not] at hown
    obtain ⟨hbc, hcc⟩ := hown
    exact ⟨bc_lt_three.2 hbc, hcc⟩
  | getc =>
    have hcc : s.cc = 0#3 := by simpa [ownFault] using hown
    exact hcc
  | addc ch =>
    simp only [ownFault, ite_eq_right_iff, reduceCtorEq, imp_false, not_or, not_not] at hown
    obtain ⟨hcc, hbc, hch⟩ := hown
    have hne : s.cc.toNat ≠ 4 := fun h' => hcc (BitVec.eq_of_toNat_eq h')
    exact ⟨Option.isSome_iff_ne_none.2 hch, by omega, hbc⟩
  | getb => exact ⟨by simpa [ownFault] using hown, hcc4⟩
  | encb b =>
    obtain ⟨-, hcc, hbc, -⟩ := (inv_enc_iff hm).1 h
    refine ⟨hbc, hcc, fun h2 => ?_⟩
    rwa [appended_encb_length, if_pos h2] at hroom
  | ence =>
    obtain ⟨-, hcc, -⟩ := (inv_enc_iff hm).1 h
    exact ⟨fun _ => hcc, by rwa [appended_ence_length] at hroom⟩
  | decc ch =>
    obtain ⟨-, hbc, hcc, -⟩ := (inv_dec_iff hm).1 h
    cases hcl : classify s.params ch with
    | ws | padCh => simp [Ready, hcl]
    | bad => simp [ownFault, hcl] at hown
    | sym v =>
      simp only [Ready, ownFault, hcl] at hown ⊢
      refine ⟨by simpa using hown, hcc, hbc, fun h3 => ?_⟩
      rwa [appended_decc_length hcl, if_pos h3] at hroom
  | dece =>
    obtain ⟨-, hbc, -, -⟩ := (inv_dec_iff hm).1 h
    exact ⟨hbc, hcc4, .inr (by rwa [appended_dece_length] at hroom)⟩

theorem outAppend_full {s : State} (h : hasRoom s 1 = false) (b : Byte) (k : State → Result) :
    outAppend b s k = .refused .outExhausted := by
  simp [outAppend, h]

/-- Where the flush does not fit, the command is refused (20_memory.md R41). -/
theorem flushGroup_full {s : State} (hcc : s.cc = 0#3) (h0 : hasRoom s 0 = true)
    (h : hasRoom s (flushLength s) = false) (k : State → Result) : flushGroup s k = .refused .outExhausted := by
  unfold flushGroup
  unfold flushLength at h
  split
  next hb => simp [hb, h0] at h
  next hb =>
    rw [if_neg hb] at h
    rw [tcsGetChars_run hcc]
    exact emitGroup_full (s := s.clearTcs) h0 h _

/-- 20_memory.md R41: from a state of the invariant, a command in its MODE that raises no fault and whose bytes do not fit
is refused. -/
theorem exec_exhausted {i : Instr} {s : State} (h : Inv s) (hm : s.mode = legalMode i) (hown : ownFault i s = none)
    (hfull : hasRoom s (appended i s).length = false) : exec i s = .refused .outExhausted := by
  have hlegal := legalMode_ne_fault i
  have h0 := hasRoom_zero h (hm ▸ hlegal)
  have hne : appended i s ≠ [] := fun he => by simp [he, h0] at hfull
  rw [exec_eq, legalIn_run (inv_admitted h) hm hlegal]
  cases i with
  | addb b | getc | addc ch | getb | clr | encs lw np | decs => exact absurd rfl hne
  | encb b =>
    obtain ⟨-, hcc, hbc, -⟩ := (inv_enc_iff hm).1 h
    have h2 : s.bc = 2#2 := by
      by_contra h2
      exact hne (if_neg h2)
    rw [appended_encb_length, if_pos h2, ← heldChars_putByte_length h2 b] at hfull
    simp only [ownRule, ruleEncb]
    rw [tcsAddByte_run hbc hcc, if_pos ((bc_eq_three b).2 h2), tcsGetChars_run (s := s.putByte b) hcc]
    exact emitGroup_full (s := (s.putByte b).clearTcs) h0 hfull _
  | ence =>
    obtain ⟨-, hcc, -⟩ := (inv_enc_iff hm).1 h
    rw [appended_ence_length] at hfull
    simp only [ownRule, ruleEnce]
    cases hflush : hasRoom s (flushLength s) with
    | false => exact flushGroup_full hcc h0 hflush _
    | true =>
      rw [flushGroup_run (fun _ => hcc) hflush]
      exact outAppend_full (by rwa [hasRoom_flushed]) _ _
  | decc ch =>
    obtain ⟨-, hbc, hcc, -⟩ := (inv_dec_iff hm).1 h
    cases hcl : classify s.params ch with
    | ws | padCh | bad => exact absurd (by simp [appended, hcl]) hne
    | sym v =>
      have h3 : s.cc = 3#3 := by
        by_contra h3
        exact hne (by simp [appended, hcl, h3])
      have hseen : s.padSeen = false := by simpa [ownFault, hcl] using hown
      have h4 := (cc_eq_four v).2 h3
      rw [appended_decc_length hcl, if_pos h3, ← heldBytes_putSym_length h3 v] at hfull
      simp only [ownRule, ruleDecc, hcl, hseen, takeSymbol]
      rw [if_neg (by decide), tcsAddChar_run ((classify_eq_sym (inv_wf h)).1 hcl) hcc hbc, if_pos h4,
        tcsGetBytes_run (s := s.putSym v) hbc (by rw [h4]; decide)]
      exact outAppendAll_full (s := (s.putSym v).clearTcs) h0 hfull _
  | dece =>
    obtain ⟨-, hbc, hcc, -⟩ := (inv_dec_iff hm).1 h
    simp only [ownRule, ruleDece]
    rw [tcsGetBytes_run hbc (Nat.le_of_lt hcc)]
    exact outAppendAll_full (s := s.clearTcs) h0 hfull _

/-- All that a command can do from a state of the invariant. -/
theorem exec_of_inv {s : State} (h : Inv s) (i : Instr) :
    (∃ t, exec i s = .next t) ∨ exec i s = .refused .outExhausted := by
  have ha := inv_admitted h
  by_cases hf : s.mode = .fault
  · exact .inl ⟨_, exec_fault ha hf⟩
  by_cases hm : s.mode = legalMode i
  · cases hown : ownFault i s with
    | some c => exact .inl ⟨_, exec_raises ha hm hown⟩
    | none =>
      cases hroom : hasRoom s (appended i s).length with
      | true => exact .inl ⟨_, exec_run ha hm (ready_of_inv h hm hown hroom)⟩
      | false => exact .inr (exec_exhausted h hm hown hroom)
  · exact .inl ⟨_, exec_elsewhere ha hf hm⟩

/-- A word that encodes no command is ignored in FAULT and faults elsewhere: it never stops. -/
theorem illegalWord_completes {s : State} (ha : Admitted s) : ∃ t, illegalWord s = .next t := by
  by_cases hf : s.mode = .fault
  · exact ⟨_, illegalWord_next.2 ⟨ha, .inl ⟨hf, rfl⟩⟩⟩
  · exact ⟨_, illegalWord_next.2 ⟨ha, .inr ⟨hf, rfl⟩⟩⟩

theorem takeWord_of_inv {s : State} (h : Inv s) (w : CmdWord) :
    (∃ t, takeWord w s = .next t) ∨ takeWord w s = .refused .outExhausted := by
  unfold takeWord
  cases decode w with
  | command i => exact exec_of_inv h i
  | reservedOpcode _ | reservedArg _ _ => exact .inl (illegalWord_completes (inv_admitted h))

/-! ## The packing of the accumulator -/

/-- 20_memory.md R33: the byte lanes are the accumulator, most significant first. -/
theorem byteLanes_append (acc : Acc24) : byteLane acc 0 ++ (byteLane acc 1 ++ byteLane acc 2) = acc := by
  simp only [byteLane, laneLow]
  rw [BitVec.extractLsb'_append_extractLsb'_eq_extractLsb' (by rfl),
    BitVec.extractLsb'_append_extractLsb'_eq_extractLsb' (by rfl)]
  exact BitVec.extractLsb'_eq_self

/-- 20_memory.md R33: the symbol slots are the accumulator, most significant first. -/
theorem symSlots_append (acc : Acc24) :
    symSlot acc 0 ++ (symSlot acc 1 ++ (symSlot acc 2 ++ symSlot acc 3)) = acc := by
  simp only [symSlot, slotLow]
  rw [BitVec.extractLsb'_append_extractLsb'_eq_extractLsb' (by rfl),
    BitVec.extractLsb'_append_extractLsb'_eq_extractLsb' (by rfl),
    BitVec.extractLsb'_append_extractLsb'_eq_extractLsb' (by rfl)]
  exact BitVec.extractLsb'_eq_self

/-- 10_state.md R11: three bytes written into the lanes from 0 on, most significant first. -/
theorem writeField_lanes (acc : Acc24) (b0 b1 b2 : Byte) :
    writeField (writeField (writeField acc (laneLow 0) b0) (laneLow 1) b1) (laneLow 2) b2 = b0 ++ (b1 ++ b2) := by
  rw [← byteLanes_append (writeField _ _ b2)]
  simp (disch := decide) only [byteLane, laneLow, extract_writeField, extract_writeField_apart]

/-- 10_state.md R11: four values written into the slots from 0 on, most significant first. -/
theorem writeField_slots (acc : Acc24) (v0 v1 v2 v3 : Sym6) :
    writeField (writeField (writeField (writeField acc (slotLow 0) v0) (slotLow 1) v1) (slotLow 2) v2) (slotLow 3) v3 =
      v0 ++ (v1 ++ (v2 ++ v3)) := by
  rw [← symSlots_append (writeField _ _ v3)]
  simp (disch := decide) only [symSlot, slotLow, extract_writeField, extract_writeField_apart]

theorem heldChars_full {s : State} (h : s.bc = 3#2) :
    heldChars s = [enc6 (symSlot s.acc 0), enc6 (symSlot s.acc 1), enc6 (symSlot s.acc 2), enc6 (symSlot s.acc 3)] := by
  rw [heldChars, h]; rfl

theorem heldBytes_full {s : State} (h : s.cc = 4#3) :
    heldBytes s = [byteLane s.acc 0, byteLane s.acc 1, byteLane s.acc 2] := by
  rw [heldBytes, h]; rfl

/-! ## The raw runs of a full group -/

theorem opField_append (op : BitVec 4) (arg : Byte) : opField (op ++ arg) = op := BitVec.extractLsb'_append_eq_left

theorem argField_append (op : BitVec 4) (arg : Byte) : argField (op ++ arg) = arg := BitVec.extractLsb'_append_eq_right

/-- 30_encoding.md R44: the word of a raw command decodes to it. -/
theorem decode_encode_of_isRaw {i : Instr} (hi : isRaw i = true) : decode (encode i) = .command i := by
  cases i with
  | getc | getb | clr => decide
  | addb b | addc b => simp [decode, encode, opField_append, argField_append]
  | encs _ _ | encb _ | ence | decs | decc _ | dece => cases hi

theorem legalMode_of_isRaw {i : Instr} (hi : isRaw i = true) : legalMode i = .idle := by
  cases i with
  | addb _ | getc | addc _ | getb | clr => rfl
  | encs _ _ | encb _ | ence | decs | decc _ | dece => cases hi

/-- IDLE with this accumulator and these counts. -/
structure IdleTcs (s : State) (acc : Acc24) (bc : BitVec 2) (cc : BitVec 3) : Prop where
  admitted : Admitted s
  mode : s.mode = .idle
  acc : s.acc = acc
  bc : s.bc = bc
  cc : s.cc = cc

/-- A run in IDLE that begins with a ready raw command goes on from its effect. -/
theorem runs_raw {s : State} (i : Instr) (acts more : List HostAction) (hi : isRaw i = true) (ha : Admitted s)
    (hm : s.mode = .idle) (hr : Ready i { s with host := acts ++ more }) :
    runs s (issue i :: acts) more = runs (effect i { s with host := acts ++ more }) acts more :=
  runs_effect (decode_encode_of_isRaw hi) ha (hm.trans (legalMode_of_isRaw hi).symm) hr

theorem runs_clr {s : State} (ha : Admitted s) (hm : s.mode = .idle) (acts more : List HostAction) :
    ∃ t, runs s (issue .clr :: acts) more = runs t acts more ∧ IdleTcs t 0#24 0#2 0#3 :=
  ⟨_, runs_raw .clr acts more rfl ha hm trivial, ha, hm, rfl, rfl, rfl⟩

theorem runs_addb {s : State} {acc : Acc24} {bc : BitVec 2} (h : IdleTcs s acc bc 0#3) (hbc : bc.toNat < 3) (b : Byte)
    (acts more : List HostAction) :
    ∃ t, runs s (issue (.addb b) :: acts) more = runs t acts more ∧
      IdleTcs t (writeField acc (laneLow bc.toNat) b) (bc + 1#2) 0#3 := by
  obtain ⟨ha, hm, rfl, rfl, hcc⟩ := h
  exact ⟨_, runs_raw (.addb b) acts more rfl ha hm ⟨hbc, hcc⟩, ha, hm, rfl, rfl, hcc⟩

theorem runs_addc {s : State} {acc : Acc24} {cc : BitVec 3} (h : IdleTcs s acc 0#2 cc) (hcc : cc.toNat < 4) (v : Sym6)
    (acts more : List HostAction) :
    ∃ t, runs s (issue (.addc (enc6 v)) :: acts) more = runs t acts more ∧
      IdleTcs t (writeField acc (slotLow cc.toNat) v) 0#2 (cc + 1#3) := by
  obtain ⟨ha, hm, rfl, hbc, rfl⟩ := h
  refine ⟨_, runs_raw (.addc (enc6 v)) acts more rfl ha hm ⟨by simp, hcc, hbc⟩, ha, hm, ?_, hbc, rfl⟩
  simp [effect]

/-- CLR and three ADDB in IDLE fill the accumulator with the bytes. -/
theorem runs_fillBytes {s : State} (ha : Admitted s) (hm : s.mode = .idle) (b0 b1 b2 : Byte)
    (acts more : List HostAction) :
    ∃ t, runs s (issue .clr :: issue (.addb b0) :: issue (.addb b1) :: issue (.addb b2) :: acts) more = runs t acts more ∧
      IdleTcs t (b0 ++ (b1 ++ b2)) 3#2 0#3 := by
  obtain ⟨t0, hrun0, h0⟩ := runs_clr ha hm _ more
  obtain ⟨t1, hrun1, h1⟩ := runs_addb h0 (by decide) b0 _ more
  obtain ⟨t2, hrun2, h2⟩ := runs_addb h1 (by decide) b1 _ more
  obtain ⟨t3, hrun3, h3⟩ := runs_addb h2 (by decide) b2 acts more
  rw [← writeField_lanes 0#24 b0 b1 b2]
  exact ⟨t3, hrun0.trans (hrun1.trans (hrun2.trans hrun3)), h3⟩

/-- CLR and four ADDC of the values' characters in IDLE fill the accumulator with the values. -/
theorem runs_fillSyms {s : State} (ha : Admitted s) (hm : s.mode = .idle) (v0 v1 v2 v3 : Sym6)
    (acts more : List HostAction) :
    ∃ t, runs s (issue .clr :: issue (.addc (enc6 v0)) :: issue (.addc (enc6 v1)) :: issue (.addc (enc6 v2)) ::
        issue (.addc (enc6 v3)) :: acts) more = runs t acts more ∧
      IdleTcs t (v0 ++ (v1 ++ (v2 ++ v3))) 0#2 4#3 := by
  obtain ⟨t0, hrun0, h0⟩ := runs_clr ha hm _ more
  obtain ⟨t1, hrun1, h1⟩ := runs_addc h0 (by decide) v0 _ more
  obtain ⟨t2, hrun2, h2⟩ := runs_addc h1 (by decide) v1 _ more
  obtain ⟨t3, hrun3, h3⟩ := runs_addc h2 (by decide) v2 _ more
  obtain ⟨t4, hrun4, h4⟩ := runs_addc h3 (by decide) v3 acts more
  rw [← writeField_slots 0#24 v0 v1 v2 v3]
  exact ⟨t4, hrun0.trans (hrun1.trans (hrun2.trans (hrun3.trans hrun4))), h4⟩

/-! ## The obligations -/

/-- Settles O24: a wait and a reset are always taken, and a word stops for want of room only. -/
theorem onlyExhaustionStops : Obligations.OnlyExhaustionStops := by
  intro s h
  have htaken : Inv (taken s) := h
  cases hh : s.host with
  | nil => exact .inl ⟨_, by rw [step_wait hh, waitForHost, onInstance_run (inv_admitted htaken)]⟩
  | cons a rest =>
    cases a with
    | reset => exact .inl ⟨_, step_reset_run (inv_admitted h) hh⟩
    | command w =>
      rw [step_command hh]
      exact takeWord_of_inv htaken w

/-- Settles O31: the accumulator is its byte lanes and its symbol slots, each most significant first. -/
theorem repackingIsMsbFirst : Obligations.RepackingIsMsbFirst := by
  intro s more hinv hm
  have ha := inv_admitted hinv
  refine ⟨fun b0 b1 b2 => ?_, fun v0 v1 v2 v3 => ?_⟩
  · obtain ⟨t, hrun, h⟩ := runs_fillBytes ha hm b0 b1 b2 [issue .getc] more
    rw [hrun, runs_raw .getc [] more rfl h.admitted h.mode h.cc]
    exact ⟨_, _, _, _, _, rfl, congrArg some (heldChars_full h.bc), by rw [symSlots_append]; exact h.acc.symm⟩
  · obtain ⟨t, hrun, h⟩ := runs_fillSyms ha hm v0 v1 v2 v3 [issue .getb] more
    rw [hrun, runs_raw .getb [] more rfl h.admitted h.mode ⟨h.bc, by simp [h.cc]⟩]
    exact ⟨_, _, _, _, rfl, congrArg some (heldBytes_full h.cc), by rw [byteLanes_append]; exact h.acc⟩

/-- Settles O39: a command that completes appends its bytes to OUT, or empties it. -/
theorem outOnlyGrows : Obligations.OutOnlyGrows := by
  intro i s t h _ hf
  obtain ⟨-, -, rfl⟩ := exec_completes h hf
  refine ⟨fun hi k hk => ?_, fun hi => ?_, fun hi => ?_⟩
  · rw [OutBuffer.read, OutBuffer.read, effect_data hi, List.getElem?_append_left hk]
  · rw [OutBuffer.len, OutBuffer.len, effect_data hi, List.length_append]
    exact Nat.le_add_right _ _
  · rw [OutBuffer.len, effect_startsRun hi, List.length_nil]

/-- Settles O41, from the number of bytes each command appends. -/
theorem exhaustedOutputRefused : Obligations.ExhaustedOutputRefused := by
  intro s h
  refine ⟨fun b hm h2 hfull => ?_, fun n hn hm hfull => ?_, fun ch hm h3 hseen hch hfull => ?_, fun hm _ hfull => ?_⟩
  · refine exec_exhausted h hm rfl ?_
    rw [appended_encb_length, if_pos h2, wrapBreak_length, ite_add]
    exact hfull
  · refine exec_exhausted h hm rfl ?_
    rwa [appended_ence_length, flushLength_eq, ← hn]
  · obtain ⟨v, hv⟩ := Option.ne_none_iff_exists'.1 hch
    have hcl := (classify_eq_sym (inv_wf h)).2 hv
    refine exec_exhausted h hm (by simp [ownFault, hcl, hseen]) ?_
    rwa [appended_decc_length hcl, if_pos h3]
  · obtain ⟨-, -, hcc, -⟩ := (inv_dec_iff hm).1 h
    refine exec_exhausted h hm rfl ?_
    rwa [appended_dece_length, byteCount_eq (Nat.le_of_lt hcc)]

/-- Settles O42, from the response and the appended bytes of each command. -/
theorem bytesPerCommand : Obligations.BytesPerCommand := by
  intro i s t h _ hf
  obtain ⟨-, hr, rfl⟩ := exec_completes h hf
  refine ⟨response i s, (appended i s).length, effect_rsp hr, fun hi => ?_, fun hi => ?_, ?_⟩
  · rw [OutBuffer.len, effect_startsRun hi, List.length_nil]
  · rw [OutBuffer.len, OutBuffer.len, effect_data hi, List.length_append]
  cases i with
  | addb b | addc ch | clr => exact ⟨rfl, rfl⟩
  | encs lw np | decs => rfl
  | getc => exact ⟨by rw [response, responseCount, heldChars_length]; exact charCount_mem s.bc, rfl⟩
  | getb => exact ⟨by rw [response, responseCount, heldBytes_length]; exact byteCount_mem s.cc, rfl⟩
  | encb b =>
    refine ⟨rfl, ?_⟩
    rw [appended_encb_length, wrapBreak_length]
    (repeat' split) <;> decide
  | ence =>
    refine ⟨rfl, ?_⟩
    rw [appended_ence_length]
    exact List.mem_map_of_mem (f := Nat.succ) (flushLength_mem s)
  | decc ch => exact ⟨rfl, appended_decc_length_mem ch s⟩
  | dece => exact ⟨rfl, (appended_dece_length s).symm ▸ byteCount_mem s.cc⟩

/-- Settles O40: with unbounded OUT, OutAppend continues with the pushed buffer. -/
theorem outAppendAddsOneByte : Obligations.OutAppendAddsOneByte := by
  intro b s k hmax
  have hlen : (s.out.push b).len = s.out.len + 1 := by simp [OutBuffer.len]
  refine ⟨s.out.push b, outAppend_run (hasRoom_unbounded hmax 1) b k, hlen, ?_, fun j hj => ?_, rfl, fun hpos hle => ?_⟩
  · rw [hlen, Nat.add_sub_cancel]
    exact List.getElem?_concat_length
  · exact List.getElem?_append_left hj
  · have hcap : (s.out.push b).cap = if s.out.len = s.out.cap then 2 * s.out.cap else s.out.cap := rfl
    rw [hlen, hcap]
    split <;> omega

end Sys2Proof.Proofs.MemoryFamily

/-! # Proofs of the family 30_encoding.md

A word as its two fields; decoding and encoding as inverses of each other; the rows of R44's table read field by field,
and with them the words that encode no command; what the block does with a word; then the obligations. -/

namespace Sys2Proof.Proofs.EncodingFamily

open Sys2Proof Sys2Proof.Machine Sys2Proof.Safety Sys2Proof.Proofs.StateFamily Sys2Proof.Proofs.MemoryFamily

/-! ## The fields of a word -/

/-- 30_encoding.md R43: a word is its `OP` above its `ARG`. -/
theorem opField_append_argField (w : CmdWord) : opField w ++ argField w = w :=
  (BitVec.extractLsb'_append_extractLsb'_eq_extractLsb' rfl).trans BitVec.extractLsb'_eq_self

theorem eq_append_of_fields {w : CmdWord} {op : BitVec 4} {arg : Byte} (hop : opField w = op)
    (harg : argField w = arg) : op ++ arg = w := by
  rw [← hop, ← harg, opField_append_argField]

theorem word_ext_iff {w v : CmdWord} : w = v ↔ opField w = opField v ∧ argField w = argField v := by
  refine ⟨fun h => h ▸ ⟨rfl, rfl⟩, fun ⟨hop, harg⟩ => ?_⟩
  rw [← opField_append_argField w, ← opField_append_argField v, hop, harg]

/-- R46: with the reserved bits clear, the argument of ENCS is its two option bits. -/
theorem encsArg_eq : ∀ arg : Byte, arg &&& 0xFC#8 = 0#8 →
    arg = 0#6 ++ (BitVec.ofBool (arg.getLsbD 1) ++ BitVec.ofBool (arg.getLsbD 0)) := by decide

/-- R48: the bits of `ARG[7:2]` are those of the mask 0xFC. -/
theorem encsReserved_eq_zero : ∀ arg : Byte, arg.extractLsb' 2 6 = 0#6 → arg &&& 0xFC#8 = 0#8 := by decide

/-! ## Decoding and encoding -/

theorem plainCommand_eq_command {i j : Instr} {op : BitVec 4} {arg : Byte} :
    plainCommand i op arg = .command j ↔ arg = 0#8 ∧ i = j := by
  unfold plainCommand
  split <;> simp [*]

theorem encsCommand_eq_command {j : Instr} {op : BitVec 4} {arg : Byte} :
    encsCommand op arg = .command j ↔ arg.extractLsb' 2 6 = 0#6 ∧ .encs (arg.getLsbD 0) (arg.getLsbD 1) = j := by
  unfold encsCommand
  split <;> simp [*]

/-- R44, R46: no bit of a command's encoding is dropped. -/
theorem decode_encode (i : Instr) : decode (encode i) = .command i := by
  cases i with
  | addb _ | getc | addc _ | getb | clr => exact decode_encode_of_isRaw rfl
  | encb b | decc b => simp [decode, encode, opField_append, argField_append]
  | encs lw np => revert lw np; decide
  | ence | decs | dece => decide

/-- R44, R49: the word a command is decoded from is the command's encoding, opcode by opcode. -/
theorem encode_of_decode {w : CmdWord} {i : Instr} (h : decode w = .command i) : encode i = w := by
  simp only [decode] at h
  split at h
  case h_1 hop | h_3 hop | h_7 hop | h_10 hop =>
    cases h
    exact eq_append_of_fields (BitVec.eq_of_toNat_eq hop) rfl
  case h_2 hop | h_4 hop | h_5 hop | h_8 hop | h_9 hop | h_11 hop =>
    obtain ⟨harg, rfl⟩ := plainCommand_eq_command.1 h
    exact eq_append_of_fields (BitVec.eq_of_toNat_eq hop) harg
  case h_6 hop =>
    obtain ⟨hreserved, rfl⟩ := encsCommand_eq_command.1 h
    exact eq_append_of_fields (BitVec.eq_of_toNat_eq hop) (encsArg_eq _ (encsReserved_eq_zero _ hreserved))
  case h_12 => cases h

theorem decode_eq_command_iff {w : CmdWord} {i : Instr} : decode w = .command i ↔ encode i = w :=
  ⟨encode_of_decode, fun h => h ▸ decode_encode i⟩

/-! ## The rows of the opcode table -/

/-- The reserved bits of `ARG` under an opcode (R45, R46, R48); `none` for a reserved opcode (R47). -/
def reservedBits (op : BitVec 4) : Option Byte :=
  match op.toNat with
  | 0x1 | 0x3 | 0x9 | 0xD => some 0x00#8
  | 0x2 | 0x4 | 0x5 | 0xA | 0xC | 0xE => some 0xFF#8
  | 0x8 => some 0xFC#8
  | _ => none

/-- The opcode of a command (R44). -/
def opcode : Instr → BitVec 4
  | .addb _ => 0x1#4
  | .getc => 0x2#4
  | .addc _ => 0x3#4
  | .getb => 0x4#4
  | .clr => 0x5#4
  | .encs _ _ => 0x8#4
  | .encb _ => 0x9#4
  | .ence => 0xA#4
  | .decs => 0xC#4
  | .decc _ => 0xD#4
  | .dece => 0xE#4

/-- The bits of `ARG` that a command's row asks to be 0. -/
def argMask (i : Instr) : Byte := (reservedBits (opcode i)).getD 0

theorem reservedBits_opcode (i : Instr) : reservedBits (opcode i) = some (argMask i) := by cases i <;> rfl

theorem opcodeRow_eq (i : Instr) : opcodeRow i = (opcode i ++ 0#8, BitVec.allOnes 4 ++ argMask i) := by
  cases i <;> simp [opcodeRow, opcode, argMask, reservedBits]

/-- Every opcode is a reserved one or that of a command. -/
theorem reservedBits_eq_none_or_opcode : ∀ op : BitVec 4, reservedBits op = none ∨
    ∃ i ∈ [.addb 0, .getc, .addc 0, .getb, .clr, .encs false false, .encb 0, .ence, .decs, .decc 0, .dece],
      opcode i = op := by decide

/-- R44: a word selects a row by the row's opcode and with the reserved bits clear. -/
theorem selectsRow_opcodeRow {w : CmdWord} {i : Instr} : selectsRow w (opcodeRow i) = true ↔
    opField w = opcode i ∧ argField w &&& argMask i = 0#8 := by
  have hop (m : CmdWord) : opField (w &&& m) = opField w &&& opField m := BitVec.extractLsb'_and
  have harg (m : CmdWord) : argField (w &&& m) = argField w &&& argField m := BitVec.extractLsb'_and
  rw [opcodeRow_eq, selectsRow, beq_iff_eq, word_ext_iff, hop, harg]
  simp only [opField_append, argField_append, BitVec.and_allOnes]

theorem selectsRow_encode (i : Instr) : selectsRow (encode i) (opcodeRow i) = true := by
  cases i with
  | addb b => exact Laws.EncodingRow.addb b
  | getc => exact Laws.EncodingRow.getc
  | addc ch => exact Laws.EncodingRow.addc ch
  | getb => exact Laws.EncodingRow.getb
  | clr => exact Laws.EncodingRow.clr
  | encs lw np => exact Laws.EncodingRow.encs lw np
  | encb b => exact Laws.EncodingRow.encb b
  | ence => exact Laws.EncodingRow.ence
  | decs => exact Laws.EncodingRow.decs
  | decc ch => exact Laws.EncodingRow.decc ch
  | dece => exact Laws.EncodingRow.dece

theorem selectsRow_of_decode {w : CmdWord} {i : Instr} (h : decode w = .command i) :
    selectsRow w (opcodeRow i) = true :=
  encode_of_decode h ▸ selectsRow_encode i

/-- A word that selects a row is the encoding of a command of that row, its operand read from `ARG`. -/
theorem decode_of_selectsRow {w : CmdWord} {i : Instr} (h : selectsRow w (opcodeRow i) = true) :
    ∃ j, decode w = .command j ∧ opcodeRow j = opcodeRow i := by
  obtain ⟨hop, harg⟩ := selectsRow_opcodeRow.1 h
  simp only [decode_eq_command_iff]
  cases i with
  | addb _ => exact ⟨.addb (argField w), eq_append_of_fields hop rfl, rfl⟩
  | addc _ => exact ⟨.addc (argField w), eq_append_of_fields hop rfl, rfl⟩
  | encb _ => exact ⟨.encb (argField w), eq_append_of_fields hop rfl, rfl⟩
  | decc _ => exact ⟨.decc (argField w), eq_append_of_fields hop rfl, rfl⟩
  | encs _ _ => exact ⟨.encs _ _, eq_append_of_fields hop (encsArg_eq _ harg), rfl⟩
  | getc | getb | clr | ence | decs | dece =>
    refine ⟨_, ?_, rfl⟩
    exact eq_append_of_fields hop (BitVec.and_allOnes.symm.trans harg)

/-! ## The words that encode no command -/

/-- R47, R48: `OP` is not reserved and the reserved bits of `ARG` are clear. -/
def legalWord (w : CmdWord) : Bool := (reservedBits (opField w)).any fun reserved => argField w &&& reserved == 0#8

theorem legalWord_iff {w : CmdWord} : legalWord w = true ↔ ∃ i, decode w = .command i := by
  constructor
  · intro h
    rcases reservedBits_eq_none_or_opcode (opField w) with hnone | ⟨i, -, hi⟩
    · simp [legalWord, hnone] at h
    · have hsel : selectsRow w (opcodeRow i) = true :=
        selectsRow_opcodeRow.2 ⟨hi.symm, by simpa [legalWord, ← hi, reservedBits_opcode] using h⟩
      obtain ⟨j, hj, -⟩ := decode_of_selectsRow hsel
      exact ⟨j, hj⟩
  · rintro ⟨i, hi⟩
    obtain ⟨hop, harg⟩ := selectsRow_opcodeRow.1 (selectsRow_of_decode hi)
    simp [legalWord, hop, reservedBits_opcode, harg]

theorem decode_ne_command {w : CmdWord} (h : legalWord w = false) (i : Instr) : decode w ≠ .command i :=
  fun hi => by simp [legalWord_iff.2 ⟨i, hi⟩] at h

theorem legalWord_append (op : BitVec 4) (arg : Byte) :
    legalWord (op ++ arg) = (reservedBits op).any fun reserved => arg &&& reserved == 0#8 := by
  rw [legalWord, opField_append, argField_append]

theorem legalWord_reservedOpcode {op : BitVec 4} (h : reservedBits op = none) (arg : Byte) :
    legalWord (op ++ arg) = false := by
  simp [legalWord_append, h]

theorem legalWord_reservedArg {op : BitVec 4} {reserved arg : Byte} (h : reservedBits op = some reserved)
    (harg : arg &&& reserved ≠ 0#8) : legalWord (op ++ arg) = false := by
  simp [legalWord_append, h, harg]

/-! ## Counting words -/

/-- The numbers below `m * n`, counted in `m` blocks of `n`. -/
theorem countP_range_mul (m n : Nat) (p : Nat → Bool) :
    (List.range (m * n)).countP p = ((List.range m).map fun q => (List.range n).countP fun r => p (q * n + r)).sum := by
  induction m with
  | zero => simp
  | succ m ih =>
    rw [Nat.succ_mul, List.range_add, List.countP_append, List.countP_map, ih, List.range_succ, List.map_append,
      List.sum_append]
    rfl

theorem ofNat_word (q r : Nat) (h : r < 256) :
    BitVec.ofNat 12 (q * 256 + r) = BitVec.ofNat 4 q ++ BitVec.ofNat 8 r := by
  apply BitVec.eq_of_toNat_eq
  rw [BitVec.toNat_append, BitVec.toNat_ofNat, BitVec.toNat_ofNat, BitVec.toNat_ofNat, Nat.mod_eq_of_lt (a := r) h,
    ← Nat.shiftLeft_add_eq_or_of_lt h, Nat.shiftLeft_eq]
  omega

/-- The words of one opcode. -/
theorem countP_block (p : CmdWord → Bool) (q : Nat) :
    ((List.range 256).countP fun r => p (BitVec.ofNat 12 (q * 256 + r))) =
      (List.range 256).countP fun r => p (BitVec.ofNat 4 q ++ BitVec.ofNat 8 r) :=
  List.countP_congr fun r hr => by rw [ofNat_word q r (List.mem_range.1 hr)]

/-- The 12-bit words, counted opcode by opcode. -/
theorem countP_words (p : CmdWord → Bool) : (List.range 4096).countP (fun w => p (BitVec.ofNat 12 w)) =
    ((List.range 16).map fun q => (List.range 256).countP fun r => p (BitVec.ofNat 4 q ++ BitVec.ofNat 8 r)).sum :=
  (countP_range_mul 16 256 _).trans (by simp only [countP_block])

theorem isSome_decodeTableWord {w : Nat} (h : w < 4096) :
    (decodeTableWord 12 w).isSome = legalWord (BitVec.ofNat 12 w) := by
  rw [Bool.eq_iff_iff, legalWord_iff, decodeTableWord, portWord, if_pos h]
  cases hd : decode (BitVec.ofNat 12 w) <;> simp [hd]

/-- How many of the first `n` arguments have these bits clear. -/
def argsWithout (n : Nat) (reserved : Byte) : Nat := (List.range n).countP fun r => BitVec.ofNat 8 r &&& reserved == 0#8

theorem countP_range_lt (n k : Nat) : (List.range n).countP (fun r => r < k) = min n k := by
  induction n with
  | zero => simp
  | succ n ih =>
    rw [List.range_succ, List.countP_append, ih, List.countP_singleton]
    by_cases h : n < k <;> simp [h] <;> omega

/-- When the arguments with these bits clear are the numbers below `k`, there are `k` of them. -/
theorem argsWithout_eq {reserved : Byte} {k : Nat} (hk : k ≤ 256)
    (h : ∀ arg : Byte, (arg &&& reserved == 0#8) = decide (arg.toNat < k)) : argsWithout 256 reserved = k := by
  have hcount : argsWithout 256 reserved = (List.range 256).countP fun r => r < k :=
    List.countP_congr fun r hr => by
      rw [h, BitVec.toNat_ofNat, Nat.mod_eq_of_lt (List.mem_range.1 hr)]
  rw [hcount, countP_range_lt, Nat.min_eq_right hk]

/-- The legal words among the first `n` of an opcode. -/
theorem countP_legal_args (n : Nat) (op : BitVec 4) :
    ((List.range n).countP fun r => legalWord (op ++ BitVec.ofNat 8 r)) = (reservedBits op).elim 0 (argsWithout n) := by
  simp only [legalWord_append]
  cases reservedBits op with
  | none => simp
  | some reserved => rfl

/-- R44: 4 opcodes have all of `ARG` as operand, 6 have none of it, and ENCS has two bits of it. -/
theorem sum_over_opcodes (f : Byte → Nat) :
    ((List.range 16).map fun q => (reservedBits (BitVec.ofNat 4 q)).elim 0 f).sum =
      4 * f 0x00#8 + 6 * f 0xFF#8 + f 0xFC#8 := by
  simp +arith [List.range_succ, reservedBits]

theorem countP_decodeTableWord : (List.range 4096).countP (fun w => (decodeTableWord 12 w).isSome) = 1034 := by
  have hoperand : argsWithout 256 0x00#8 = 256 := argsWithout_eq le_rfl (by decide)
  have hplain : argsWithout 256 0xFF#8 = 1 := argsWithout_eq (by decide) (by decide)
  have hencs : argsWithout 256 0xFC#8 = 4 := argsWithout_eq (by decide) (by decide)
  have hlegal : (List.range 4096).countP (fun w => (decodeTableWord 12 w).isSome) =
      (List.range 4096).countP fun w => legalWord (BitVec.ofNat 12 w) :=
    List.countP_congr fun w hw => by rw [isSome_decodeTableWord (List.mem_range.1 hw)]
  rw [hlegal, countP_words]
  simp only [countP_legal_args]
  rw [sum_over_opcodes, hoperand, hplain, hencs]

/-! ## What the block does with a word -/

theorem takeWord_command {w : CmdWord} {i : Instr} (h : decode w = .command i) (s : State) :
    takeWord w s = exec i s := by
  rw [takeWord, h]

theorem takeWord_illegal {w : CmdWord} (h : ∀ i, decode w ≠ .command i) (s : State) :
    takeWord w s = illegalWord s := by
  unfold takeWord
  cases hd : decode w with
  | command i => exact absurd hd (h i)
  | reservedOpcode _ | reservedArg _ _ => rfl

/-- 60_exceptions.md R92: in FAULT every word is ignored. -/
theorem takeWord_fault {s : State} (ha : Admitted s) (hf : s.mode = .fault) (w : CmdWord) :
    takeWord w s = .next s.noResponse := by
  unfold takeWord
  cases decode w with
  | command i => exact exec_fault ha hf
  | reservedOpcode _ | reservedArg _ _ => exact receive_fault ha hf _

/-- R52 steps 2 and 3: outside FAULT a word that encodes no command raises ARGERR. -/
theorem takesFault_illegal {w : CmdWord} {s : State} (ha : Admitted s) (hf : s.mode ≠ .fault)
    (h : ∀ i, decode w ≠ .command i) : TakesFault .argErr s (takeWord w s) := by
  rw [takeWord_illegal h, illegalWord, receive_run ha hf]
  exact raise_takesFault _ _

/-- R48 in the form of the obligation, from the reserved bits of an opcode. -/
theorem reservedArgFaults {op : BitVec 4} {reserved : Byte} (h : reservedBits op = some reserved) :
    ReservedArgFaults op reserved := fun _ _ ha hf harg =>
  takesFault_illegal ha hf (decode_ne_command (legalWord_reservedArg h harg))

/-! ## The obligations -/

/-- Settles O1: each opcode's arm of the decoder reads back the fields that the encoder wrote. -/
theorem decodeOfEncode : Obligations.DecodeOfEncode := decode_encode

/-- Settles O2: an arm of the decoder that gives a command fixes every bit of the word. -/
theorem encodeOfDecode : Obligations.EncodeOfDecode := fun _ _ => encode_of_decode

/-- Settles O3: a word that selects two rows decodes to a command of each, and it decodes to one command only. -/
theorem wordsSelectDisjointRows : Obligations.WordsSelectDisjointRows := by
  refine ⟨fun _ _ => selectsRow_of_decode, fun _ _ => decode_of_selectsRow, fun w i j hi hj => ?_⟩
  obtain ⟨i', hdi, hrowi⟩ := decode_of_selectsRow hi
  obtain ⟨j', hdj, hrowj⟩ := decode_of_selectsRow hj
  have hsame : i' = j' := Decoded.command.inj (hdi.symm.trans hdj)
  rw [← hrowi, ← hrowj, hsame]

/-- Settles O4: the five opcodes have no row; each of them has 256 words. -/
theorem reservedOpcodesRaiseArgErr : Obligations.ReservedOpcodesRaiseArgErr := by
  have hnone : ∀ op ∈ [0x0#4, 0x6#4, 0x7#4, 0xB#4, 0xF#4], reservedBits op = none := by decide
  refine ⟨fun op hop arg => ?_, ?_⟩
  · have hillegal := decode_ne_command (legalWord_reservedOpcode (hnone op hop) arg)
    exact ⟨hillegal, fun s ha hf => takesFault_illegal ha hf hillegal⟩
  · rw [countP_words fun w => [0x0#4, 0x6#4, 0x7#4, 0xB#4, 0xF#4].contains (opField w)]
    have hconst (b : Bool) : (List.range 256).countP (fun _ => b) = if b then 256 else 0 := by cases b <;> simp
    simp only [opField_append, hconst]
    decide

/-- Settles O5: an argument with a reserved bit set is in no row; 4 opcodes have 256 legal arguments each, 6 have one
and ENCS has 4. -/
theorem reservedArgBitsRaiseArgErr : Obligations.ReservedArgBitsRaiseArgErr := by
  have hplain : ∀ op ∈ [0x2#4, 0x4#4, 0x5#4, 0xA#4, 0xC#4, 0xE#4], reservedBits op = some 0xFF#8 := by decide
  refine ⟨fun op hop => ⟨reservedArgFaults (hplain op hop), fun arg harg => ?_⟩, reservedArgFaults rfl,
    fun arg harg => decode_ne_command (legalWord_reservedArg rfl harg), countP_decodeTableWord⟩
  have hall : arg &&& 0xFF#8 ≠ 0#8 := by rwa [show 0xFF#8 = BitVec.allOnes 8 from rfl, BitVec.and_allOnes]
  exact decode_ne_command (legalWord_reservedArg (hplain op hop) hall)

/-- Settles O10: one guard after the other. -/
theorem checksComeInOrder : Obligations.ChecksComeInOrder := by
  refine fun s w ha => ⟨fun hf => takeWord_fault ha hf w, takesFault_illegal ha, fun i hf hd hm => ?_,
    fun i hd => takeWord_command hd s⟩
  rw [takeWord_command hd, exec_elsewhere ha hf hm]
  exact takesFault_faulted _ _

/-- Settles O6: each word is the encoding of the command of its line. -/
theorem specWordsDecode : Obligations.SpecWordsDecode := by
  unfold Obligations.SpecWordsDecode
  decide

/-- Settles O9: a step hands the oldest word to the decoder. -/
theorem stepRunsDecodedCommand : Obligations.StepRunsDecodedCommand := by
  intro s w rest i hhost hd
  rw [step, hhost]
  exact takeWord_command hd _

end Sys2Proof.Proofs.EncodingFamily

/-! # Proofs of the family 40_core_encode.md

The faults of a command in the form of the obligations, what a raw command leaves unchanged, the lane that ADDB fills and
the symbols that GETC answers; then the obligations. -/

namespace Sys2Proof.Proofs.CoreEncodeFamily

open Sys2Proof Sys2Proof.Machine Sys2Proof.Safety Sys2Proof.Proofs.StateFamily Sys2Proof.Proofs.MemoryFamily
  Sys2Proof.Proofs.EncodingFamily

/-! ## The faults of a command -/

/-- 60_exceptions.md R87: every command raises ARGERR outside its MODE. -/
theorem illegalElsewhere (i : Instr) : IllegalElsewhere i := fun s ha hf hm =>
  exec_elsewhere ha hf hm ▸ takesFault_faulted .argErr s

/-- A command in its MODE takes the fault of its own. -/
theorem takesFault_of_ownFault {i : Instr} {s : State} {c : Cause} (ha : Admitted s) (hm : s.mode = legalMode i)
    (h : ownFault i s = some c) : TakesFault c s (exec i s) :=
  exec_raises ha hm h ▸ takesFault_faulted c s

/-! ## The effect of a raw command -/

/-- 40_core_encode.md R54: only TCS and the response. -/
theorem effect_raw_frame {i : Instr} (hi : isRaw i = true) (s : State) :
    effect i s =
      { s with acc := (effect i s).acc, bc := (effect i s).bc, cc := (effect i s).cc, rsp := (effect i s).rsp } := by
  cases i with
  | addb b | getc | addc ch | getb | clr => rfl
  | encs _ _ | encb _ | ence | decs | decc _ | dece => cases hi

/-- 40_core_encode.md R56: byte lane BC holds the byte. -/
theorem byteLane_putByte (s : State) (b : Byte) : byteLane (s.putByte b).acc s.bc.toNat = b :=
  extract_writeField s.acc (laneLow s.bc.toNat) b (by unfold laneLow; omega)

/-- R56: the bits outside byte lane BC keep their value. -/
theorem putByte_acc_apart {s : State} (hb : s.bc.toNat < 3) (b : Byte) {k : Nat} (hk : k < 24)
    (hapart : k < 16 - 8 * s.bc.toNat ∨ 24 - 8 * s.bc.toNat ≤ k) :
    (s.putByte b).acc.getLsbD k = s.acc.getLsbD k := by
  have houtside : ¬(laneLow s.bc.toNat ≤ k ∧ k < laneLow s.bc.toNat + 8) := by unfold laneLow; omega
  rw [State.putByte_acc, writeField_getLsbD _ _ _ _ hk, if_neg houtside]

/-- 40_core_encode.md R57: a drain answers the first `charCount BC` of the four symbols. -/
theorem heldChars_eq_take (s : State) :
    heldChars s = [enc6 (s.acc.extractLsb 23 18), enc6 (s.acc.extractLsb 17 12), enc6 (s.acc.extractLsb 11 6),
      enc6 (s.acc.extractLsb 5 0)].take (charCount s.bc) := rfl

/-! ## The obligations -/

/-- Settles O30: a command that does not fault ends in its effect. -/
theorem rawCommandsTouchOnlyTcs : Obligations.RawCommandsTouchOnlyTcs := by
  intro i s t hi h hf
  obtain ⟨-, -, rfl⟩ := exec_completes h hf
  exact effect_raw_frame hi s

/-- Settles O25: CLR is ready in every TCS state. -/
theorem clrClearsTcs : Obligations.ClrClearsTcs :=
  ⟨decode_encode .clr, illegalElsewhere .clr, reservedArgFaults rfl, fun _ ha hm => exec_run (i := .clr) ha hm trivial⟩

/-- Settles O26: where ADDB does not fault, BC names a lane of ACC. -/
theorem addbFillsNextByteLane : Obligations.AddbFillsNextByteLane := by
  refine fun b => ⟨decode_encode (.addb b), illegalElsewhere (.addb b), fun s ha hm => ⟨fun hbroken => ?_,
    fun hbc hcc => ?_⟩⟩
  · exact takesFault_of_ownFault ha hm (if_pos hbroken)
  · have hlane : s.bc.toNat < 3 := bc_lt_three.2 hbc
    exact ⟨(s.putByte b).acc, (s.putByte b).bc, exec_run (i := .addb b) ha hm ⟨hlane, hcc⟩, bc_succ hlane,
      byteLane_putByte s b, fun k hk => putByte_acc_apart hlane b hk⟩

/-- Settles O27: the answer is the symbols held, as many as BC says. -/
theorem getcDrainsSymbols : Obligations.GetcDrainsSymbols := by
  refine ⟨decode_encode .getc, illegalElsewhere .getc, reservedArgFaults rfl, fun s ha hm => ⟨fun hcc => ?_,
    fun hcc => ⟨heldChars s, exec_run (i := .getc) ha hm hcc, ?_⟩⟩⟩
  · exact takesFault_of_ownFault ha hm (if_pos hcc)
  · rw [heldChars_eq_take]
    refine ⟨fun hbc => ?_, fun hbc => ?_, fun hbc => ?_, fun hbc => ?_⟩ <;> (rw [hbc]; rfl)

end Sys2Proof.Proofs.CoreEncodeFamily

/-! # Proofs of the family 41_core_decode.md

The slot that ADDC fills and the bytes that GETB answers; then the obligations. -/

namespace Sys2Proof.Proofs.CoreDecodeFamily

open Sys2Proof Sys2Proof.Machine Sys2Proof.Safety Sys2Proof.Proofs.StateFamily Sys2Proof.Proofs.EncodingFamily
  Sys2Proof.Proofs.CoreEncodeFamily

/-! ## The effect of ADDC -/

/-- 41_core_decode.md R61: symbol slot CC holds the value. -/
theorem symSlot_putSym (s : State) (v : Sym6) : symSlot (s.putSym v).acc s.cc.toNat = v :=
  extract_writeField s.acc (slotLow s.cc.toNat) v (by unfold slotLow; omega)

/-- R61: the other 18 bits of ACC keep their value. -/
theorem putSym_acc_apart {s : State} (hc : s.cc.toNat < 4) (v : Sym6) {k : Nat} (hk : k < 24)
    (hapart : k < 18 - 6 * s.cc.toNat ∨ 24 - 6 * s.cc.toNat ≤ k) :
    (s.putSym v).acc.getLsbD k = s.acc.getLsbD k := by
  have houtside : ¬(slotLow s.cc.toNat ≤ k ∧ k < slotLow s.cc.toNat + 6) := by unfold slotLow; omega
  rw [State.putSym_acc, writeField_getLsbD _ _ _ _ hk, if_neg houtside]

/-- R63: ADDC of an alphabet character, with a free slot and no byte held, adds its value. -/
theorem exec_addc_run {s : State} {ch : Byte} {v : Sym6} (ha : Admitted s) (hm : s.mode = .idle)
    (hv : dec6 ch = some v) (hcc : s.cc.toNat < 4) (hbc : s.bc = 0#2) :
    exec (.addc ch) s = .next ((s.putSym v).withResponse []) := by
  rw [exec_run (i := .addc ch) ha hm ⟨Option.isSome_of_eq_some hv, hcc, hbc⟩, effect, hv, Option.getD_some]

/-! ## The answer of GETB -/

/-- 41_core_decode.md R62: a drain answers the first `byteCount CC` of the three bytes. -/
theorem heldBytes_eq_take (s : State) :
    heldBytes s =
      [s.acc.extractLsb 23 16, s.acc.extractLsb 15 8, s.acc.extractLsb 7 0].take (byteCount s.cc) := rfl

/-! ## The obligations -/

/-- Settles O28: where ADDC does not fault, CC names a slot of ACC. -/
theorem addcFillsNextSlot : Obligations.AddcFillsNextSlot := by
  refine fun ch => ⟨decode_encode (.addc ch), illegalElsewhere (.addc ch), fun s ha hm => ⟨fun hbroken => ?_,
    fun v hcc hbc hv => ?_⟩⟩
  · exact takesFault_of_ownFault ha hm (if_pos hbroken)
  · exact ⟨(s.putSym v).acc, (s.putSym v).cc, exec_addc_run ha hm hv hcc hbc, cc_succ hcc, symSlot_putSym s v,
      fun k hk => putSym_acc_apart hcc v hk⟩

/-- Settles O29: the answer is the bytes that the symbols held make complete, as many as CC says. -/
theorem getbDrainsBytes : Obligations.GetbDrainsBytes := by
  refine ⟨decode_encode .getb, illegalElsewhere .getb, reservedArgFaults rfl, fun s ha hm => ⟨fun hbc => ?_,
    fun hbc hcc => ⟨heldBytes s, exec_run (i := .getb) ha hm ⟨hbc, hcc⟩, ?_⟩⟩⟩
  · exact takesFault_of_ownFault ha hm (if_pos hbc)
  · rw [heldBytes_eq_take]
    refine ⟨fun hcc => ?_, fun hcc => ?_, fun hcc => ?_, fun hcc => ?_, fun hcc => ?_⟩ <;> (rw [hcc]; rfl)

end Sys2Proof.Proofs.CoreDecodeFamily

/-! # Proofs of the family 42_encoder.md

The accumulator written out by its byte lanes, and the symbols it holds as the groups of the closed form; what each
sequencer command leaves unchanged; the effects of ENCB and ENCE; the lines of the output and the column reached on the
last one; the live encode run, group by group; then the obligations. -/

namespace Sys2Proof.Proofs.EncoderFamily

open Sys2Proof Sys2Proof.Machine Sys2Proof.Safety Sys2Proof.Proofs.StateFamily Sys2Proof.Proofs.MemoryFamily
  Sys2Proof.Proofs.EncodingFamily Sys2Proof.Proofs.CoreEncodeFamily

/-! ## The accumulator by its byte lanes -/

theorem byteLane_lanes (x y z : Byte) :
    byteLane (x ++ (y ++ z)) 0 = x ∧ byteLane (x ++ (y ++ z)) 1 = y ∧ byteLane (x ++ (y ++ z)) 2 = z := by
  simp (disch := decide) only [byteLane, laneLow, BitVec.extractLsb'_append_eq_of_le,
    BitVec.extractLsb'_append_eq_of_add_le]
  simp [BitVec.extractLsb'_eq_self]

/-- 10_state.md R11: writing one byte lane leaves the other two. -/
theorem writeField_lane (x y z b : Byte) :
    writeField (x ++ (y ++ z)) (laneLow 0) b = b ++ (y ++ z) ∧
      writeField (x ++ (y ++ z)) (laneLow 1) b = x ++ (b ++ z) ∧
      writeField (x ++ (y ++ z)) (laneLow 2) b = x ++ (y ++ b) := by
  obtain ⟨h0, h1, h2⟩ := byteLane_lanes x y z
  simp only [byteLane, laneLow] at h0 h1 h2
  refine ⟨?_, ?_, ?_⟩ <;> rw [← byteLanes_append (writeField _ _ b)]
  all_goals simp (disch := decide) only [byteLane, laneLow, extract_writeField, extract_writeField_apart, h0, h1, h2]

theorem packBytes_eq_lanes {bs : List Byte} (h : bs.length < 3) :
    packBytes bs = bs.getD 0 0#8 ++ (bs.getD 1 0#8 ++ 0#8) := by
  match bs, h with
  | [], _ => rfl
  | [x], _ => exact congrArg (x ++ ·) (by decide : 0#16 = 0#8 ++ 0#8)
  | [x, y], _ => rfl

/-- 42_encoder.md R69 item 2: the next byte goes to the lane after the bytes held. -/
theorem writeField_packBytes {bs : List Byte} (h : bs.length < 2) (b : Byte) :
    writeField (packBytes bs) (laneLow bs.length) b = packBytes (bs ++ [b]) := by
  rw [packBytes_eq_lanes (by omega), packBytes_eq_lanes (by simp; omega)]
  match bs, h with
  | [], _ =>
    obtain ⟨hlane, -, -⟩ := writeField_lane 0#8 0#8 0#8 b
    exact hlane
  | [x], _ =>
    obtain ⟨-, hlane, -⟩ := writeField_lane x 0#8 0#8 b
    exact hlane

/-! ## The symbols held, as the groups of the closed form -/

/-- 40_core_encode.md R57: the four symbol slots, cut from the three byte lanes. -/
theorem symSlot_lanes (x y z : Byte) :
    symSlot (x ++ (y ++ z)) 0 = x.extractLsb' 2 6 ∧
      symSlot (x ++ (y ++ z)) 1 = x.extractLsb' 0 2 ++ y.extractLsb' 4 4 ∧
      symSlot (x ++ (y ++ z)) 2 = y.extractLsb' 0 4 ++ z.extractLsb' 6 2 ∧
      symSlot (x ++ (y ++ z)) 3 = z.extractLsb' 0 6 := by
  simp only [symSlot, slotLow]
  rw [← BitVec.extractLsb'_append_extractLsb'_eq_extractLsb' (start₁ := 18 - 6 * 1) (len₂ := 2) (len₁ := 4) rfl,
    ← BitVec.extractLsb'_append_extractLsb'_eq_extractLsb' (start₁ := 18 - 6 * 2) (len₂ := 4) (len₁ := 2) rfl]
  simp (disch := decide) only [BitVec.extractLsb'_append_eq_of_le, BitVec.extractLsb'_append_eq_of_add_le,
    and_self]

theorem heldChars_eq_group {s : State} {x y z : Byte} (h : s.acc = x ++ (y ++ z)) :
    heldChars s = (groupOf3 x y z).take (charCount s.bc) := by
  obtain ⟨h0, h1, h2, h3⟩ := symSlot_lanes x y z
  rw [heldChars, h, h0, h1, h2, h3, groupOf3]

/-! ## What a sequencer command leaves unchanged -/

/-- 42_encoder.md R68: the flush of a partial group writes none of the flags of the run. -/
theorem flushed_flags (s : State) :
    s.flushed.lw = s.lw ∧ s.flushed.pad = s.pad ∧ s.flushed.padSeen = s.padSeen := by
  unfold State.flushed
  split <;> exact ⟨rfl, rfl, rfl⟩

/-- The commands other than ENCS keep the options of the run. -/
theorem effect_options {i : Instr} (hi : ∀ lw np, i ≠ .encs lw np) (s : State) :
    (effect i s).lw = s.lw ∧ (effect i s).pad = s.pad := by
  cases i with
  | encs lw np => exact absurd rfl (hi lw np)
  | addb _ | getc | addc _ | getb | clr | decs | dece => exact ⟨rfl, rfl⟩
  | encb b => simp only [effect]; split <;> exact ⟨rfl, rfl⟩
  | ence =>
    obtain ⟨hlw, hpad, -⟩ := flushed_flags s
    exact ⟨hlw, hpad⟩
  | decc ch => simp only [effect]; (repeat' split) <;> exact ⟨rfl, rfl⟩

/-- The commands other than ENCS, DECS and DECC keep PADSEEN. -/
theorem effect_padSeen {i : Instr} (hi : startsRun i = false) (hdecc : ∀ ch, i ≠ .decc ch) (s : State) :
    (effect i s).padSeen = s.padSeen := by
  cases i with
  | encs _ _ | decs => cases hi
  | decc ch => exact absurd rfl (hdecc ch)
  | addb _ | getc | addc _ | getb | clr | dece => rfl
  | encb b => simp only [effect]; split <;> rfl
  | ence =>
    obtain ⟨-, -, hseen⟩ := flushed_flags s
    exact hseen

/-- The commands of a decode run keep COL. -/
theorem effect_col_of_dec {i : Instr} (hi : legalMode i = .dec) (s : State) : (effect i s).col = s.col := by
  cases i with
  | decc ch => simp only [effect]; (repeat' split) <;> rfl
  | dece => rfl
  | addb _ | getc | addc _ | getb | clr | encs _ _ | encb _ | ence | decs => cases hi

/-- The commands that take one byte or character of a run keep DONE and MODE. -/
theorem effect_run_status {i : Instr} {s : State} (hi : (∃ b, i = .encb b) ∨ ∃ ch, i = .decc ch)
    (hm : s.mode = legalMode i) : (effect i s).done = s.done ∧ (effect i s).mode = s.mode := by
  rw [effect_done, effect_mode hm, hm]
  obtain ⟨b, rfl⟩ | ⟨ch, rfl⟩ := hi <;> exact ⟨rfl, rfl⟩

/-! ## The effects of ENCB and ENCE -/

/-- 42_encoder.md R67: the first and the second byte of a group. -/
theorem effect_encb_fill {s : State} (h : s.bc ≠ 2#2) (b : Byte) :
    effect (.encb b) s = (s.putByte b).withResponse [] := if_neg h

/-- R67: the third byte of a group. -/
theorem effect_encb_drain {s : State} {x y z : Byte} (h : s.bc = 2#2) (hacc : s.acc = x ++ (y ++ z)) (b : Byte) :
    effect (.encb b) s = (s.clearTcs.emitted (groupOf3 x y b)).withResponse [] := by
  obtain ⟨-, -, hlane⟩ := writeField_lane x y z b
  have hput : (s.putByte b).acc = x ++ (y ++ b) := by rw [State.putByte_acc, h, hacc]; exact hlane
  rw [effect, if_pos h, clearTcs_putByte, heldChars_eq_group hput, (bc_eq_three b).2 h]
  rfl

/-- R68: the final group of one leftover byte. -/
theorem padGroup_heldChars_one {s : State} {x : Byte} (h : s.bc = 1#2) (hacc : s.acc = x ++ (0#8 ++ 0#8)) :
    padGroup s.pad (heldChars s) = groupOf1 x ++ (if s.pad then [padChar, padChar] else []) := by
  have hheld : heldChars s = groupOf1 x := by rw [heldChars_eq_group hacc, h]; rfl
  rw [hheld]
  cases s.pad <;> rfl

/-- R68: the final group of two leftover bytes. -/
theorem padGroup_heldChars_two {s : State} {x y : Byte} (h : s.bc = 2#2) (hacc : s.acc = x ++ (y ++ 0#8)) :
    padGroup s.pad (heldChars s) = groupOf2 x y ++ (if s.pad then [padChar] else []) := by
  have hheld : heldChars s = groupOf2 x y := by rw [heldChars_eq_group hacc, h]; rfl
  rw [hheld]
  cases s.pad <;> rfl

/-- 42_encoder.md R68: ENCE with no byte held. -/
theorem effect_ence_empty {s : State} (h : s.bc = 0#2) :
    effect .ence s = ((s.pushAll [lf]).endRun).withResponse [] := by
  rw [effect, State.flushed, if_pos h]

/-- R68: ENCE with the partial group `g` held. -/
theorem effect_ence_flush {s : State} {g : List Byte} (h : s.bc ≠ 0#2) (hg : padGroup s.pad (heldChars s) = g) :
    effect .ence s = (((s.clearTcs.emitted g).pushAll [lf]).endRun).withResponse [] := by
  rw [effect, State.flushed, if_neg h, hg]

/-- 42_encoder.md R65: COL after a group. -/
theorem emitted_col_eq (s : State) (g : List Byte) :
    (s.emitted g).col =
      if s.lw then (if s.col = s.params.width then g.length else s.col + g.length) else s.col := by
  rw [State.emitted_col, startCol]
  cases s.lw with
  | false => rfl
  | true => by_cases h : s.col = s.params.width <;> simp [h]

/-! ## The lines of the output -/

/-- The wrap of two nonempty parts is the wrap of each, with an LF between them when the last character of the first part
ends a line. -/
theorem wrapFrom_append (width i : Nat) (c d : Byte) (cs ds : List Byte) :
    wrapFrom width i (c :: cs ++ d :: ds) =
      wrapFrom width i (c :: cs) ++
        ((if (i + cs.length) % width = 0 then [lf] else []) ++ wrapFrom width (i + cs.length + 1) (d :: ds)) := by
  induction cs generalizing i c with
  | nil =>
    simp only [List.cons_append, List.nil_append, wrapFrom, List.length_nil, Nat.add_zero]
    split <;> rfl
  | cons e cs ih =>
    have hnext := ih (i + 1) e
    rw [List.cons_append] at hnext
    simp only [List.cons_append, wrapFrom, List.length_cons, hnext, Nat.add_right_comm i 1, ← Nat.add_assoc]
    split <;> rfl

/-- Characters none of which ends a line, but for the last, are not wrapped. -/
theorem wrapFrom_eq_self {width i : Nat} {cs : List Byte} (h : ∀ k, k + 1 < cs.length → (i + k) % width ≠ 0) :
    wrapFrom width i cs = cs := by
  induction cs generalizing i with
  | nil => rfl
  | cons c cs ih =>
    cases cs with
    | nil => rfl
    | cons d cs =>
      have hrest : wrapFrom width (i + 1) (d :: cs) = d :: cs := ih fun k hk => by
        have := h (k + 1) (Nat.succ_lt_succ hk)
        rwa [← Nat.add_assoc, Nat.add_right_comm] at this
      have hfirst : i % width ≠ 0 := h 0 (Nat.succ_lt_succ (Nat.succ_pos _))
      rw [wrapFrom, if_neg hfirst, hrest]

/-- A group of at most 4 characters that starts at a multiple of 4 is not wrapped inside. -/
theorem wrapFrom_group {width n : Nat} {g : List Byte} (hw : width % 4 = 0) (hn : n % 4 = 0) (hg : g.length ≤ 4) :
    wrapFrom width (n + 1) g = g := by
  refine wrapFrom_eq_self fun k hk h0 => ?_
  have h4 : (n + 1 + k) % 4 = 0 :=
    Nat.mod_eq_zero_of_dvd ((Nat.dvd_of_mod_eq_zero hw).trans (Nat.dvd_of_mod_eq_zero h0))
  omega

/-- 42_encoder.md R69 item 4: the column after `n` characters on wrapped lines. -/
def columnAfter (width n : Nat) : Nat := if n = 0 then 0 else (n - 1) % width + 1

/-- A line is full where the number of characters is a positive multiple of the width. -/
theorem columnAfter_eq_width {width n : Nat} (hw : 0 < width) :
    columnAfter width n = width ↔ n ≠ 0 ∧ n % width = 0 := by
  obtain ⟨w, rfl⟩ := Nat.exists_eq_succ_of_ne_zero hw.ne'
  cases n with
  | zero => simp [columnAfter]
  | succ n => simp [columnAfter, Nat.succ_mod_succ_eq_zero_iff]

/-- 42_encoder.md R65: after the break, if one is due, the next group starts at the column `n mod WIDTH`. -/
theorem columnAfter_break {width n : Nat} (hw : 0 < width) :
    (if columnAfter width n = width then 0 else columnAfter width n) = n % width := by
  split
  next hfull =>
    obtain ⟨-, hmod⟩ := (columnAfter_eq_width hw).1 hfull
    exact hmod.symm
  next hroom =>
    cases n with
    | zero => exact (Nat.zero_mod width).symm
    | succ n =>
      have hcol : columnAfter width (n + 1) = n % width + 1 := rfl
      have hlt : n % width < width := Nat.mod_lt _ hw
      rw [hcol] at hroom ⊢
      exact (Nat.mod_eq_of_lt (by omega)).symm.trans (Nat.mod_add_mod n width 1)

/-- R65: a group of at most 4 characters fits on the line it starts on. -/
theorem columnAfter_add {width n m : Nat} (hw4 : width % 4 = 0) (hw : 0 < width) (hn : n % 4 = 0) (hm : 0 < m)
    (hm4 : m ≤ 4) : columnAfter width (n + m) = n % width + m := by
  have hlt : n % width < width := Nat.mod_lt _ hw
  have h4 : n % width % 4 = 0 := by rw [Nat.mod_mod_of_dvd _ (Nat.dvd_of_mod_eq_zero hw4), hn]
  have hmod : (n + (m - 1)) % width = n % width + (m - 1) := by
    rw [← Nat.mod_add_mod, Nat.mod_eq_of_lt (by omega)]
  rw [columnAfter, if_neg (by omega), Nat.add_sub_assoc hm, hmod]
  omega

/-- R65: a further group on the lines of the output is preceded by an LF when the last line is full. -/
theorem wrapFrom_append_group {width : Nat} {chars g : List Byte} (hw4 : width % 4 = 0) (hw : 0 < width)
    (hchars : chars.length % 4 = 0) (hpos : 0 < g.length) (hg : g.length ≤ 4) :
    wrapFrom width 1 (chars ++ g) =
      wrapFrom width 1 chars ++ ((if columnAfter width chars.length = width then [lf] else []) ++ g) := by
  have hself := wrapFrom_group hw4 hchars hg
  simp only [columnAfter_eq_width hw]
  cases chars with
  | nil => simpa [wrapFrom] using hself
  | cons c cs =>
    obtain ⟨d, ds, rfl⟩ := List.exists_cons_of_length_pos hpos
    rw [wrapFrom_append, Nat.add_comm 1, ← List.length_cons, hself]
    simp

/-! ## The live encode run -/

/-- 42_encoder.md R69: a live encode run under the parameters `p`, with unbounded OUT and the options `lw` and `np`, in
which the characters `chars` have been emitted and the bytes `held` are still in the accumulator. -/
structure EncodeRun (p : Params) (lw np : Bool) (chars held : List Byte) (s : State) : Prop where
  inv : Inv s
  mode : s.mode = .enc
  params : s.params = p
  unbounded : p.maxOut = none
  wrap : s.lw = lw
  padding : s.pad = !np
  few : held.length < 3
  bc : s.bc.toNat = held.length
  acc : s.acc = packBytes held
  whole : chars.length % 4 = 0
  out : s.out.data = onLines p.width lw chars
  col : s.col = if lw then columnAfter p.width chars.length else 0

section
variable {p : Params} {lw np : Bool} {chars held : List Byte} {s : State}

/-- The wrap break of the live run is the one of the lines written so far. -/
theorem EncodeRun.wrapBreak_eq (h : EncodeRun p lw np chars held s) :
    wrapBreak s = if lw = true ∧ columnAfter p.width chars.length = p.width then [lf] else [] := by
  unfold wrapBreak
  rw [h.wrap, h.params, h.col]
  cases lw <;> simp

/-- 42_encoder.md R69 item 3: a further group of at most 4 characters on the lines of the output. -/
theorem EncodeRun.emitted_data (h : EncodeRun p lw np chars held s) {g : List Byte} (hpos : 0 < g.length)
    (hg : g.length ≤ 4) : (s.clearTcs.emitted g).out.data = onLines p.width lw (chars ++ g) := by
  obtain ⟨hw4, hw⟩ := admitted_width (inv_admitted h.inv)
  rw [h.params] at hw4 hw
  rw [State.emitted_data, State.clearTcs_out, wrapBreak_clearTcs, h.wrapBreak_eq, h.out]
  cases lw with
  | false => rfl
  | true => simpa [onLines] using (wrapFrom_append_group hw4 (Nat.zero_lt_of_lt hw) h.whole hpos hg).symm

/-- R69 item 4: the column after a further group. -/
theorem EncodeRun.emitted_col (h : EncodeRun p lw np chars held s) {g : List Byte} (hpos : 0 < g.length)
    (hg : g.length ≤ 4) :
    (s.clearTcs.emitted g).col = if lw then columnAfter p.width (chars ++ g).length else 0 := by
  obtain ⟨hw4, hw⟩ := admitted_width (inv_admitted h.inv)
  rw [h.params] at hw4 hw
  rw [State.emitted_col, State.clearTcs_lw, startCol_clearTcs, startCol, h.wrap, h.params, h.col]
  cases lw with
  | false => rfl
  | true =>
    have hw0 : 0 < p.width := Nat.zero_lt_of_lt hw
    simpa [columnAfter_break hw0] using (columnAfter_add hw4 hw0 h.whole hpos hg).symm

/-- In a live run with unbounded OUT the next byte is always taken (R69 item 1). -/
theorem EncodeRun.ready (h : EncodeRun p lw np chars held s) (b : Byte) : Ready (.encb b) s :=
  ready_of_inv h.inv h.mode rfl (hasRoom_unbounded (by rw [h.params, h.unbounded]) _)

theorem EncodeRun.withHost (h : EncodeRun p lw np chars held s) (acts : List HostAction) :
    EncodeRun p lw np chars held { s with host := acts } := { h with }

/-- ENCS from a state of the invariant in IDLE begins a live run (42_encoder.md R66). -/
theorem encodeRun_effect_encs (lw np : Bool) (h : Inv s) (hm : s.mode = .idle) (hmax : s.params.maxOut = none) :
    EncodeRun s.params lw np [] [] (effect (.encs lw np) s) where
  inv := inv_effect h hm trivial
  mode := rfl
  params := rfl
  unbounded := hmax
  wrap := rfl
  padding := rfl
  few := Nat.zero_lt_succ _
  bc := rfl
  acc := rfl
  whole := rfl
  out := by cases lw <;> rfl
  col := by cases lw <;> rfl

/-- R67: the first and the second byte of a group join the bytes held. -/
theorem EncodeRun.effect_fill (h : EncodeRun p lw np chars held s) (hlen : held.length < 2) (b : Byte) :
    EncodeRun p lw np chars (held ++ [b]) (effect (.encb b) s) := by
  have hbc : s.bc.toNat < 2 := h.bc ▸ hlen
  have hne : s.bc ≠ 2#2 := fun h2 => by simp [h2] at hbc
  have hinv := inv_effect (i := .encb b) h.inv h.mode (h.ready b)
  rw [effect_encb_fill hne] at hinv ⊢
  exact { h with
    inv := hinv
    few := by rw [List.length_append]; exact Nat.succ_lt_succ hlen
    bc := by rw [List.length_append, ← h.bc]; exact bc_succ (Nat.lt_succ_of_lt hbc)
    acc := by
      rw [State.withResponse_acc, State.putByte_acc, h.bc, h.acc]
      exact writeField_packBytes hlen b }

/-- R67: the third byte of a group completes it. -/
theorem EncodeRun.effect_drain {x y : Byte} (h : EncodeRun p lw np chars [x, y] s) (b : Byte) :
    EncodeRun p lw np (chars ++ groupOf3 x y b) [] (effect (.encb b) s) := by
  have h2 : s.bc = 2#2 := BitVec.eq_of_toNat_eq h.bc
  have hinv := inv_effect (i := .encb b) h.inv h.mode (h.ready b)
  rw [effect_encb_drain h2 h.acc] at hinv ⊢
  have hpos : 0 < (groupOf3 x y b).length := Nat.zero_lt_succ _
  exact { h with
    inv := hinv
    few := Nat.zero_lt_succ _
    bc := rfl
    acc := rfl
    whole := by rw [List.length_append]; exact (Nat.add_mod_right _ 4).trans h.whole
    out := h.emitted_data hpos le_rfl
    col := h.emitted_col hpos le_rfl }

/-- In a live run, ENCB is executed and the run goes on from its effect. -/
theorem EncodeRun.runs_encb (h : EncodeRun p lw np chars held s) (b : Byte) (acts more : List HostAction) :
    runs s (issue (.encb b) :: acts) more = runs (effect (.encb b) { s with host := acts ++ more }) acts more :=
  runs_effect (decode_encode _) (inv_admitted h.inv) h.mode ((h.withHost _).ready b)

theorem EncodeRun.runs_fill (h : EncodeRun p lw np chars held s) (hlen : held.length < 2) (b : Byte)
    (acts more : List HostAction) :
    ∃ t, runs s (issue (.encb b) :: acts) more = runs t acts more ∧ EncodeRun p lw np chars (held ++ [b]) t :=
  ⟨_, h.runs_encb b acts more, (h.withHost _).effect_fill hlen b⟩

theorem EncodeRun.runs_drain {x y : Byte} (h : EncodeRun p lw np chars [x, y] s) (b : Byte)
    (acts more : List HostAction) :
    ∃ t, runs s (issue (.encb b) :: acts) more = runs t acts more ∧ EncodeRun p lw np (chars ++ groupOf3 x y b) [] t :=
  ⟨_, h.runs_encb b acts more, (h.withHost _).effect_drain b⟩

end

/-- R69 items 2 and 3: the bytes left over by the full groups of an input are those of the rest of the input. -/
theorem drop_fullGroup (x y z : Byte) (rest : List Byte) :
    (x :: y :: z :: rest).drop (3 * ((x :: y :: z :: rest).length / 3)) = rest.drop (3 * (rest.length / 3)) := by
  have hlen : 3 * ((x :: y :: z :: rest).length / 3) = 3 * (rest.length / 3) + 3 := by
    simp only [List.length_cons]
    omega
  rw [hlen]
  rfl

theorem fullGroups_length (bs : List Byte) : (fullGroups bs).length = 4 * (bs.length / 3) := by
  match bs with
  | [] | [_] | [_, _] => simp [fullGroups]
  | x :: y :: z :: rest =>
    rw [fullGroups, List.length_append, fullGroups_length rest]
    simp only [List.length_cons, groupOf3, List.length_nil]
    omega

/-- R69: in a live run that holds no byte, ENCB of every byte of `bs` emits the full groups of `bs` and holds the bytes
left over. -/
theorem runs_encbs {p : Params} {lw np : Bool} {chars : List Byte} {s : State} (bs : List Byte)
    (acts more : List HostAction) (h : EncodeRun p lw np chars [] s) :
    ∃ t, runs s (bs.map (fun b => issue (.encb b)) ++ acts) more = runs t acts more ∧
      EncodeRun p lw np (chars ++ fullGroups bs) (bs.drop (3 * (bs.length / 3))) t := by
  match bs with
  | [] => exact ⟨s, rfl, by simpa [fullGroups] using h⟩
  | [x] =>
    obtain ⟨t, hrun, ht⟩ := h.runs_fill Nat.two_pos x acts more
    exact ⟨t, hrun, by simpa [fullGroups] using ht⟩
  | [x, y] =>
    obtain ⟨t1, hrun1, h1⟩ := h.runs_fill Nat.two_pos x (issue (.encb y) :: acts) more
    obtain ⟨t2, hrun2, h2⟩ := h1.runs_fill Nat.one_lt_two y acts more
    exact ⟨t2, hrun1.trans hrun2, by simpa [fullGroups] using h2⟩
  | x :: y :: z :: rest =>
    obtain ⟨t1, hrun1, h1⟩ := h.runs_fill Nat.two_pos x _ more
    obtain ⟨t2, hrun2, h2⟩ := h1.runs_fill Nat.one_lt_two y _ more
    obtain ⟨t3, hrun3, h3⟩ := h2.runs_drain z _ more
    obtain ⟨t, hrun, ht⟩ := runs_encbs rest acts more h3
    rw [List.append_assoc] at ht
    exact ⟨t, hrun1.trans (hrun2.trans (hrun3.trans hrun)), (drop_fullGroup x y z rest).symm ▸ ht⟩

/-- 42_encoder.md R66, R69: ENCS and ENCB of every byte of `bs`, whatever follows. -/
theorem runs_encodePrefix {s : State} (lw np : Bool) (bs : List Byte) (acts more : List HostAction) (h : Inv s)
    (hm : s.mode = .idle) (hmax : s.params.maxOut = none) :
    ∃ t, runs s (encodePrefix lw np bs ++ acts) more = runs t acts more ∧
      EncodeRun s.params lw np (fullGroups bs) (bs.drop (3 * (bs.length / 3))) t := by
  have hstart := encodeRun_effect_encs (s := { s with host := bs.map (fun b => issue (.encb b)) ++ acts ++ more })
    lw np h hm hmax
  obtain ⟨t, hrun, ht⟩ := runs_encbs bs acts more hstart
  exact ⟨t, (runs_effect (decode_encode (.encs lw np)) (inv_admitted h) hm trivial).trans hrun, ht⟩

/-! ## The obligations -/

/-- Settles O32: ENCS is ready in every IDLE state. -/
theorem encsStartsEncodeRun : Obligations.EncsStartsEncodeRun :=
  ⟨reservedArgFaults rfl, fun lw np => ⟨decode_encode (.encs lw np), illegalElsewhere (.encs lw np),
    fun _ ha hm => exec_run (i := .encs lw np) ha hm trivial⟩⟩

/-- Settles O33: the third byte completes the group of the two held in lanes 0 and 1. -/
theorem encbEncodesOneByte : Obligations.EncbEncodesOneByte := by
  refine fun b => ⟨decode_encode (.encb b), illegalElsewhere (.encb b), fun s ha hm hcc => ⟨fun hbc => ?_,
    fun hbc brk hbrk hroom => ?_⟩⟩
  · have hlane : s.bc.toNat < 3 := by omega
    have hne : s.bc ≠ 2#2 := fun h => by simp [h] at hbc
    refine ⟨(s.putByte b).acc, (s.putByte b).bc, ?_, bc_succ hlane, byteLane_putByte s b,
      fun k hk => putByte_acc_apart hlane b hk⟩
    rw [exec_run (i := .encb b) ha hm ⟨hlane, hcc, fun h => absurd h hne⟩, effect_encb_fill hne]
    rfl
  · obtain rfl : brk = wrapBreak s := hbrk
    have hready : Ready (.encb b) s := ⟨by simp [hbc], hcc, fun _ => hroom⟩
    refine ⟨_, exec_run (i := .encb b) ha hm hready, ?_⟩
    rw [effect_encb_drain hbc (byteLanes_append s.acc).symm b]
    refine ⟨rfl, ?_, emitted_col_eq s.clearTcs _⟩
    rw [List.append_assoc]
    exact State.emitted_data s.clearTcs _

/-- Settles O34: the flush, then the one LF. -/
theorem enceEndsEncodeRun : Obligations.EnceEndsEncodeRun := by
  refine ⟨decode_encode .ence, illegalElsewhere .ence, reservedArgFaults rfl, fun s ha hm hcc => ⟨fun hbc hroom => ?_,
    fun brk hbrk g hg h2 h1 hroom => ?_⟩⟩
  · have hready : Ready .ence s := ⟨fun _ => hcc, by rwa [flushLength, if_pos hbc, Nat.zero_add]⟩
    refine ⟨_, exec_run (i := .ence) ha hm hready, ?_⟩
    rw [effect_ence_empty hbc]
    exact ⟨rfl, State.pushAll_data s [lf]⟩
  · obtain rfl : brk = wrapBreak s := hbrk
    have hlane2 : byteLane s.acc 2 = 0#8 := h2
    have hlanes := (byteLanes_append s.acc).symm
    rw [hlane2] at hlanes
    obtain ⟨hbc, hheld⟩ : s.bc ≠ 0#2 ∧ padGroup s.pad (heldChars s) = g := by
      obtain ⟨hbc, rfl⟩ | ⟨hbc, rfl⟩ := hg
      · have hlane1 : byteLane s.acc 1 = 0#8 := h1 hbc
        rw [hlane1] at hlanes
        exact ⟨by simp [hbc], padGroup_heldChars_one hbc hlanes⟩
      · exact ⟨by simp [hbc], padGroup_heldChars_two hbc hlanes⟩
    have hready : Ready .ence s := ⟨fun _ => hcc, by rwa [flushLength, if_neg hbc, hheld]⟩
    refine ⟨_, exec_run (i := .ence) ha hm hready, ?_⟩
    rw [effect_ence_flush hbc hheld]
    refine ⟨rfl, ?_, emitted_col_eq s.clearTcs g⟩
    rw [List.append_assoc s.out.data]
    exact (State.pushAll_data _ [lf]).trans (congrArg (· ++ [lf]) (State.emitted_data s.clearTcs g))

/-- Settles O38: a command that does not fault ends in its effect. -/
theorem sequencerFrame : Obligations.SequencerFrame := by
  intro i s t _ h hf
  obtain ⟨hm, -, rfl⟩ := exec_completes h hf
  exact ⟨effect_cause i s, effect_params i s, effect_host i s, effect_draws i s, fun hi => effect_options hi s,
    fun hi hdecc => effect_padSeen hi hdecc s, fun hi => effect_col_of_dec hi s, fun hi => effect_run_status hi hm⟩

/-- Settles O47, by induction on the groups of the input. -/
theorem encodeRunState : Obligations.EncodeRunState := by
  intro s lw np bs more h hm hmax
  obtain ⟨t, hrun, ht⟩ := runs_encodePrefix lw np bs [] more h hm hmax
  rw [List.append_nil] at hrun
  obtain ⟨hlive, hcc, -, -, -, hdone, hseen⟩ := (inv_enc_iff ht.mode).1 ht.inv
  refine ⟨_, hrun, ht.mode, ht.wrap, ht.padding, hcc, ?_, ht.acc, ht.out, ?_, hdone, hseen, hlive.cause, ht.params, rfl⟩
  · rw [ht.bc, List.length_drop]
    omega
  · rw [ht.col, columnAfter, fullGroups_length]
    cases lw <;> simp

end Sys2Proof.Proofs.EncoderFamily

/-! # Proofs of the family 43_decoder.md

The classes of an input character and the text they leave; the instances that are refused; the accumulator written out by
its symbol slots and the bytes of a full group; the effects of DECC; the live decode run, character by character; then
the obligations. -/

namespace Sys2Proof.Proofs.DecoderFamily

open Sys2Proof Sys2Proof.Machine Sys2Proof.Safety Sys2Proof.Proofs.StateFamily Sys2Proof.Proofs.MemoryFamily
  Sys2Proof.Proofs.EncodingFamily Sys2Proof.Proofs.CoreEncodeFamily Sys2Proof.Proofs.CoreDecodeFamily

/-! ## The classes of an input character -/

theorem classify_eq_ws {p : Params} {ch : Byte} : classify p ch = .ws ↔ isWS p ch = true := by
  unfold classify
  by_cases hws : isWS p ch = true
  · simp [hws]
  by_cases hpad : ch = padChar
  · subst hpad
    simp [hws]
  · cases hv : dec6 ch <;> simp [hws, hpad]

theorem classify_eq_bad {p : Params} {ch : Byte} :
    classify p ch = .bad ↔ isWS p ch = false ∧ ch ≠ padChar ∧ dec6 ch = none := by
  unfold classify
  by_cases hws : isWS p ch = true
  · simp [hws]
  by_cases hpad : ch = padChar
  · subst hpad
    simp [hws]
  · cases hv : dec6 ch <;> simp [hws, hpad]

/-- 43_decoder.md R70: under well-formed parameters no whitespace byte is in the alphabet or is `=`. -/
theorem wf_ws_disjoint {p : Params} (hp : p.wf = true) {ch : Byte} (hws : isWS p ch = true) :
    dec6 ch = none ∧ ch ≠ padChar := by
  simp only [Params.wf, Bool.and_eq_true] at hp
  obtain ⟨⟨-, hdisjoint⟩, -⟩ := hp
  have hmem : ch ∈ p.ws := by simpa [isWS] using hws
  simpa using List.all_eq_true.1 hdisjoint ch hmem

theorem isWS_padChar {p : Params} (hp : p.wf = true) : isWS p padChar = false := by
  by_contra hws
  obtain ⟨-, hne⟩ := wf_ws_disjoint hp (Bool.eq_true_of_not_eq_false hws)
  exact hne rfl

theorem isWS_of_sym {p : Params} (hp : p.wf = true) {ch : Byte} {v : Sym6} (hv : dec6 ch = some v) :
    isWS p ch = false := by
  by_contra hws
  obtain ⟨hnone, -⟩ := wf_ws_disjoint hp (Bool.eq_true_of_not_eq_false hws)
  simp [hv] at hnone

theorem ne_padChar_of_sym {ch : Byte} {v : Sym6} (hv : dec6 ch = some v) : ch ≠ padChar := by
  rintro rfl
  simp at hv

theorem classify_eq_padCh {p : Params} (hp : p.wf = true) {ch : Byte} : classify p ch = .padCh ↔ ch = padChar := by
  constructor
  · intro h
    unfold classify at h
    (repeat' split at h) <;> simp_all
  · rintro rfl
    simp [classify, isWS_padChar hp]

/-! ## The text a decode run accepts, by its first character -/

section
variable {p : Params} {ch : Byte} {cs : List Byte}

theorem withoutWs_cons_ws (hws : isWS p ch = true) : withoutWs p (ch :: cs) = withoutWs p cs := by
  simp [withoutWs, hws]

theorem withoutWs_cons (hws : isWS p ch = false) : withoutWs p (ch :: cs) = ch :: withoutWs p cs := by
  simp [withoutWs, hws]

/-- 44_whole_run.md R78: after a `=` only `=` is accepted. -/
theorem acceptable_padChar : acceptable (padChar :: cs) = cs.all (· == padChar) := by
  simp [acceptable, beforePad]

theorem acceptable_cons (hne : ch ≠ padChar) : acceptable (ch :: cs) = ((dec6 ch).isSome && acceptable cs) := by
  simp [acceptable, beforePad, hne, Bool.and_assoc]

theorem symbolsOf_ws (hws : isWS p ch = true) : symbolsOf p (ch :: cs) = symbolsOf p cs := by
  rw [symbolsOf, withoutWs_cons_ws hws, symbolsOf]

theorem symbolsOf_padChar (hp : p.wf = true) : symbolsOf p (padChar :: cs) = [] := by
  simp [symbolsOf, withoutWs_cons (isWS_padChar hp), beforePad]

theorem symbolsOf_sym (hp : p.wf = true) {v : Sym6} (hv : dec6 ch = some v) :
    symbolsOf p (ch :: cs) = v :: symbolsOf p cs := by
  simp [symbolsOf, withoutWs_cons (isWS_of_sym hp hv), beforePad, ne_padChar_of_sym hv, hv]

end

/-! ## The instances that are refused -/

section
variable {s : State} {r : Refusal}

theorem onInstance_refused (h : instanceRefusal s.params = some r) (k : State → Result) : onInstance s k = .refused r := by
  simp [onInstance, h]

theorem exec_refused (h : instanceRefusal s.params = some r) (i : Instr) : exec i s = .refused r := by
  rw [exec_eq, legalIn, receive, onInstance_refused h]

theorem illegalWord_refused (h : instanceRefusal s.params = some r) : illegalWord s = .refused r := by
  rw [illegalWord, receive, onInstance_refused h]

theorem takeWord_refused (h : instanceRefusal s.params = some r) (w : CmdWord) : takeWord w s = .refused r := by
  unfold takeWord
  cases decode w with
  | command i => exact exec_refused h i
  | reservedOpcode _ | reservedArg _ _ => exact illegalWord_refused h

/-- Whatever the host's next action is, the step is refused when the parameters are. -/
theorem step_refused (h : instanceRefusal s.params = some r) : step s = .refused r := by
  have htaken : instanceRefusal (taken s).params = some r := h
  cases hh : s.host with
  | nil => rw [step_wait hh, waitForHost, onInstance_refused htaken]
  | cons a rest =>
    cases a with
    | reset => rw [step_reset hh, takeReset, onInstance_refused htaken]
    | command w => rw [step_command hh, takeWord_refused htaken]

end

/-! ## The accumulator by its symbol slots -/

theorem symSlot_slots (a b c d : Sym6) :
    symSlot (a ++ (b ++ (c ++ d))) 0 = a ∧ symSlot (a ++ (b ++ (c ++ d))) 1 = b ∧
      symSlot (a ++ (b ++ (c ++ d))) 2 = c ∧ symSlot (a ++ (b ++ (c ++ d))) 3 = d := by
  simp (disch := decide) only [symSlot, slotLow, BitVec.extractLsb'_append_eq_of_le,
    BitVec.extractLsb'_append_eq_of_add_le]
  simp [BitVec.extractLsb'_eq_self]

theorem acc_eq_of_slots {x y : Acc24} (h : ∀ j < 4, symSlot x j = symSlot y j) : x = y := by
  rw [← symSlots_append x, ← symSlots_append y, h 0 (by decide), h 1 (by decide), h 2 (by decide), h 3 (by decide)]

/-- 10_state.md R11: writing one symbol slot leaves the others. -/
theorem symSlot_writeField {i j : Nat} (hi : i < 4) (hj : j < 4) (acc : Acc24) (v : Sym6) :
    symSlot (writeField acc (slotLow i) v) j = if j = i then v else symSlot acc j := by
  unfold symSlot slotLow
  split
  next heq => rw [heq, extract_writeField _ _ _ (by omega)]
  next hne => rw [extract_writeField_apart _ _ _ _ _ (by omega) (by omega)]

theorem packSyms_eq_slots (vs : List Sym6) :
    packSyms vs = vs.getD 0 0#6 ++ (vs.getD 1 0#6 ++ (vs.getD 2 0#6 ++ vs.getD 3 0#6)) := by
  match vs with
  | [] => rfl
  | [a] => exact congrArg (a ++ ·) (by decide : 0#18 = 0#6 ++ (0#6 ++ 0#6))
  | [a, b] => exact congrArg (fun x => a ++ (b ++ x)) (by decide : 0#12 = 0#6 ++ 0#6)
  | [a, b, c] => rfl
  | a :: b :: c :: d :: _ => rfl

theorem symSlot_packSyms (vs : List Sym6) {j : Nat} (hj : j < 4) : symSlot (packSyms vs) j = vs.getD j 0#6 := by
  obtain ⟨h0, h1, h2, h3⟩ := symSlot_slots (vs.getD 0 0#6) (vs.getD 1 0#6) (vs.getD 2 0#6) (vs.getD 3 0#6)
  rw [packSyms_eq_slots]
  interval_cases j
  · exact h0
  · exact h1
  · exact h2
  · exact h3

/-- 43_decoder.md R76 item 2: the next symbol goes to the slot after the symbols held. -/
theorem writeField_packSyms {vs : List Sym6} (h : vs.length < 4) (v : Sym6) :
    writeField (packSyms vs) (slotLow vs.length) v = packSyms (vs ++ [v]) := by
  refine acc_eq_of_slots fun j hj => ?_
  rw [symSlot_writeField h hj, symSlot_packSyms _ hj, symSlot_packSyms _ hj]
  rcases lt_trichotomy j vs.length with hlt | heq | hgt
  · rw [if_neg hlt.ne, List.getD_append _ _ _ _ hlt]
  · simp [heq]
  · rw [if_neg hgt.ne', List.getD_eq_default _ _ hgt.le, List.getD_eq_default _ _ (by simpa using hgt)]

/-! ## The bytes of the symbols' bits -/

theorem byteOf_getLsbD (y : Byte) :
    byteOf (y.getLsbD 7) (y.getLsbD 6) (y.getLsbD 5) (y.getLsbD 4) (y.getLsbD 3) (y.getLsbD 2) (y.getLsbD 1)
      (y.getLsbD 0) = y := by
  revert y
  decide

/-- 44_whole_run.md R78: the 24 bits of four symbols are the three bytes that the full accumulator holds. -/
theorem wholeBytes_group (a b c d : Sym6) :
    wholeBytes ([a, b, c, d].flatMap bitsOf) =
      [byteLane (packSyms [a, b, c, d]) 0, byteLane (packSyms [a, b, c, d]) 1, byteLane (packSyms [a, b, c, d]) 2] := by
  rw [← byteOf_getLsbD (byteLane _ 0), ← byteOf_getLsbD (byteLane _ 1), ← byteOf_getLsbD (byteLane _ 2)]
  simp only [packSyms, byteLane, laneLow, BitVec.getLsbD_extractLsb', BitVec.getLsbD_append]
  rfl

theorem wholeBytes_length (bits : List Bool) : (wholeBytes bits).length = bits.length / 8 := by
  match bits with
  | [] | [_] | [_, _] | [_, _, _] | [_, _, _, _] | [_, _, _, _, _] | [_, _, _, _, _, _] | [_, _, _, _, _, _, _] =>
    simp [wholeBytes]
  | _ :: _ :: _ :: _ :: _ :: _ :: _ :: _ :: rest =>
    rw [wholeBytes, List.length_cons, wholeBytes_length rest]
    simp only [List.length_cons]
    omega

theorem wholeBytes_append {as : List Bool} (bs : List Bool) (h : as.length % 8 = 0) :
    wholeBytes (as ++ bs) = wholeBytes as ++ wholeBytes bs := by
  match as with
  | [] => rfl
  | [_] | [_, _] | [_, _, _] | [_, _, _, _] | [_, _, _, _, _] | [_, _, _, _, _, _] | [_, _, _, _, _, _, _] =>
    simp at h
  | _ :: _ :: _ :: _ :: _ :: _ :: _ :: _ :: rest =>
    have hrest : rest.length % 8 = 0 := by
      simp only [List.length_cons] at h
      omega
    simp only [List.cons_append, wholeBytes, wholeBytes_append bs hrest]

theorem flatMap_bitsOf_length (vs : List Sym6) : (vs.flatMap bitsOf).length = 6 * vs.length := by
  induction vs with
  | nil => rfl
  | cons v vs ih =>
    rw [List.flatMap_cons, List.length_append, ih, List.length_cons, Nat.mul_succ, Nat.add_comm]
    rfl

/-! ## The full groups of a symbol sequence -/

/-- The symbols of the full groups of `vs` (43_decoder.md R76 item 3). -/
def groupedSyms (vs : List Sym6) : List Sym6 := vs.take (4 * (vs.length / 4))

/-- The symbols of `vs` left over by its full groups (R76 item 2). -/
def heldSyms (vs : List Sym6) : List Sym6 := vs.drop (4 * (vs.length / 4))

theorem groupedSyms_append_heldSyms (vs : List Sym6) : groupedSyms vs ++ heldSyms vs = vs := List.take_append_drop _ _

theorem groupedSyms_length (vs : List Sym6) : (groupedSyms vs).length = 4 * (vs.length / 4) := by
  rw [groupedSyms, List.length_take]
  omega

theorem heldSyms_length (vs : List Sym6) : (heldSyms vs).length = vs.length % 4 := by
  rw [heldSyms, List.length_drop]
  omega

/-- A symbol that completes no group joins those left over. -/
theorem groups_append_fill {vs : List Sym6} (h : vs.length % 4 ≠ 3) (v : Sym6) :
    groupedSyms (vs ++ [v]) = groupedSyms vs ∧ heldSyms (vs ++ [v]) = heldSyms vs ++ [v] := by
  have hsame : (vs ++ [v]).length / 4 = vs.length / 4 := by
    rw [List.length_append, List.length_singleton]
    omega
  have hle : 4 * (vs.length / 4) ≤ vs.length := Nat.mul_div_le _ _
  rw [groupedSyms, heldSyms, hsame]
  exact ⟨List.take_append_of_le_length hle, List.drop_append_of_le_length hle⟩

/-- The symbol that completes a group leaves none over. -/
theorem groups_append_drain {vs : List Sym6} (h : vs.length % 4 = 3) (v : Sym6) :
    groupedSyms (vs ++ [v]) = groupedSyms vs ++ (heldSyms vs ++ [v]) ∧ heldSyms (vs ++ [v]) = [] := by
  have hall : 4 * ((vs ++ [v]).length / 4) = (vs ++ [v]).length := by
    rw [List.length_append, List.length_singleton]
    omega
  rw [← List.append_assoc, groupedSyms_append_heldSyms, groupedSyms, heldSyms, hall]
  exact ⟨List.take_length, List.drop_length⟩

/-- The bytes of the full groups of `vs` (R76 item 3). -/
def groupedBytes (vs : List Sym6) : List Byte := wholeBytes ((groupedSyms vs).flatMap bitsOf)

theorem groupedBytes_length (vs : List Sym6) : (groupedBytes vs).length = 3 * (vs.length / 4) := by
  rw [groupedBytes, wholeBytes_length, flatMap_bitsOf_length, groupedSyms_length]
  omega

/-- A completed group adds the three bytes that the full accumulator holds. -/
theorem groupedBytes_append_drain {vs : List Sym6} (h : vs.length % 4 = 3) (v : Sym6) :
    groupedBytes (vs ++ [v]) = groupedBytes vs ++
      [byteLane (packSyms (heldSyms vs ++ [v])) 0, byteLane (packSyms (heldSyms vs ++ [v])) 1,
        byteLane (packSyms (heldSyms vs ++ [v])) 2] := by
  obtain ⟨a, b, c, hheld⟩ := List.length_eq_three.1 ((heldSyms_length vs).trans h)
  obtain ⟨hgrouped, -⟩ := groups_append_drain h v
  have hwhole : ((groupedSyms vs).flatMap bitsOf).length % 8 = 0 := by
    rw [flatMap_bitsOf_length, groupedSyms_length]
    omega
  rw [groupedBytes, hgrouped, List.flatMap_append, wholeBytes_append _ hwhole, hheld]
  exact congrArg (groupedBytes vs ++ ·) (wholeBytes_group a b c v)

/-! ## The effects of DECC -/

section
variable {s : State} {ch : Byte}

theorem effect_decc_ws (h : classify s.params ch = .ws) : effect (.decc ch) s = s.withResponse [] := by
  simp only [effect, h]

theorem effect_decc_padCh (h : classify s.params ch = .padCh) :
    effect (.decc ch) s = State.withResponse { s with padSeen := true } [] := by
  simp only [effect, h]

/-- 43_decoder.md R73: the first three symbols of a group. -/
theorem effect_decc_fill {v : Sym6} (h : classify s.params ch = .sym v) (h3 : s.cc ≠ 3#3) :
    effect (.decc ch) s = (s.putSym v).withResponse [] := by
  simp only [effect, h, if_neg h3]

/-- R73: the fourth symbol of a group. -/
theorem effect_decc_drain {v : Sym6} (h : classify s.params ch = .sym v) (h3 : s.cc = 3#3) :
    effect (.decc ch) s = (s.clearTcs.pushAll (heldBytes (s.putSym v))).withResponse [] := by
  simp only [effect, h, if_pos h3, clearTcs_putSym]

/-- 41_core_decode.md R62: the bytes of the group that `v` completes. -/
theorem heldBytes_putSym (h3 : s.cc = 3#3) (v : Sym6) :
    heldBytes (s.putSym v) = [s.acc.extractLsb 23 16, s.acc.extractLsb 15 8, s.acc.extractLsb 7 6 ++ v] := by
  have hacc : (s.putSym v).acc = writeField s.acc 0 v := by rw [State.putSym_acc, h3]; rfl
  have hlast : (writeField s.acc 0 v).extractLsb' 0 8 = s.acc.extractLsb' 6 2 ++ v := by
    rw [← BitVec.extractLsb'_append_extractLsb'_eq_extractLsb' (start₁ := 0) (len₁ := 6) (len₂ := 2) rfl,
      extract_writeField_apart _ _ _ _ _ (by decide) (by decide), extract_writeField _ _ _ (by decide)]
  rw [heldBytes_full ((cc_eq_four v).2 h3), hacc]
  simp (disch := decide) only [byteLane, laneLow, extract_writeField_apart, hlast, BitVec.extractLsb]

end

/-! ## The live decode run -/

/-- 43_decoder.md R76: a live decode run under the parameters `p`, with unbounded OUT, in which the symbols `vs` have been
taken and `seen` tells whether a `=` was. -/
structure DecodeRun (p : Params) (vs : List Sym6) (seen : Bool) (s : State) : Prop where
  inv : Inv s
  mode : s.mode = .dec
  params : s.params = p
  unbounded : p.maxOut = none
  cc : s.cc.toNat = vs.length % 4
  acc : s.acc = packSyms (heldSyms vs)
  out : s.out.data = groupedBytes vs
  padSeen : s.padSeen = seen

section
variable {p : Params} {vs : List Sym6} {seen : Bool} {s : State} {ch : Byte}

theorem DecodeRun.wf (h : DecodeRun p vs seen s) : p.wf = true := h.params ▸ inv_wf h.inv

theorem DecodeRun.withHost (h : DecodeRun p vs seen s) (acts : List HostAction) :
    DecodeRun p vs seen { s with host := acts } := { h with }

/-- In a live run with unbounded OUT a character that raises no fault is taken (R76 item 1). -/
theorem DecodeRun.ready (h : DecodeRun p vs seen s) (hown : ownFault (.decc ch) s = none) : Ready (.decc ch) s :=
  ready_of_inv h.inv h.mode hown (hasRoom_unbounded (by rw [h.params, h.unbounded]) _)

/-- DECS from a state of the invariant in IDLE begins a live run (43_decoder.md R72). -/
theorem decodeRun_effect_decs (h : Inv s) (hm : s.mode = .idle) (hmax : s.params.maxOut = none) :
    DecodeRun s.params [] false (effect .decs s) where
  inv := inv_effect h hm trivial
  mode := rfl
  params := rfl
  unbounded := hmax
  cc := rfl
  acc := rfl
  out := rfl
  padSeen := rfl

/-- R73: whitespace changes nothing. -/
theorem DecodeRun.effect_ws (h : DecodeRun p vs seen s) (hcl : classify p ch = .ws) :
    DecodeRun p vs seen (effect (.decc ch) s) := by
  rw [← h.params] at hcl
  rw [effect_decc_ws hcl]
  exact { h with }

/-- R73: `=` is remembered. -/
theorem DecodeRun.effect_padCh (h : DecodeRun p vs seen s) (hcl : classify p ch = .padCh) :
    DecodeRun p vs true (effect (.decc ch) s) := by
  rw [← h.params] at hcl
  have hinv := inv_effect (i := .decc ch) h.inv h.mode (h.ready (by simp [ownFault, hcl]))
  rw [effect_decc_padCh hcl] at hinv ⊢
  exact { h with
    inv := hinv
    padSeen := rfl }

/-- R73: a symbol before the first `=` joins the symbols taken. -/
theorem DecodeRun.effect_sym (h : DecodeRun p vs false s) {v : Sym6} (hcl : classify p ch = .sym v) :
    DecodeRun p (vs ++ [v]) false (effect (.decc ch) s) := by
  rw [← h.params] at hcl
  have hown : ownFault (.decc ch) s = none := by simp [ownFault, hcl, h.padSeen]
  have hinv := inv_effect (i := .decc ch) h.inv h.mode (h.ready hown)
  have hheld : (heldSyms vs).length = s.cc.toNat := (heldSyms_length vs).trans h.cc.symm
  have hfew : (heldSyms vs).length < 4 := heldSyms_length vs ▸ Nat.mod_lt _ (Nat.zero_lt_succ 3)
  have hput : (s.putSym v).acc = packSyms (heldSyms vs ++ [v]) := by
    rw [State.putSym_acc, h.acc, ← hheld, writeField_packSyms hfew]
  by_cases h3 : s.cc = 3#3
  · have hlast : vs.length % 4 = 3 := by rw [← h.cc, h3]; rfl
    obtain ⟨-, hnone⟩ := groups_append_drain hlast v
    rw [effect_decc_drain hcl h3] at hinv ⊢
    exact { h with
      inv := hinv
      cc := by rw [List.length_append]; exact (Nat.succ_mod_succ_eq_zero_iff.2 hlast).symm
      acc := by rw [hnone]; rfl
      out := by
        rw [groupedBytes_append_drain hlast, ← h.out, ← hput, ← heldBytes_full ((cc_eq_four v).2 h3)]
        exact State.pushAll_data s.clearTcs _ }
  · have hmore : vs.length % 4 ≠ 3 := fun h' => h3 (BitVec.eq_of_toNat_eq (h.cc.trans h'))
    obtain ⟨hsame, hjoined⟩ := groups_append_fill hmore v
    rw [effect_decc_fill hcl h3] at hinv ⊢
    exact { h with
      inv := hinv
      cc := by
        have hsucc : (s.putSym v).cc.toNat = s.cc.toNat + 1 := cc_succ (hheld ▸ hfew)
        rw [State.withResponse_cc, hsucc, h.cc, List.length_append, List.length_singleton]
        omega
      acc := by rw [hjoined]; exact hput
      out := by rw [groupedBytes, hsame]; exact h.out }

/-- In a live run, a DECC that raises no fault is executed and the run goes on from its effect. -/
theorem DecodeRun.runs_decc (h : DecodeRun p vs seen s) (hown : ownFault (.decc ch) s = none)
    (acts more : List HostAction) :
    runs s (issue (.decc ch) :: acts) more = runs (effect (.decc ch) { s with host := acts ++ more }) acts more :=
  runs_effect (decode_encode _) (inv_admitted h.inv) h.mode ((h.withHost _).ready hown)

theorem DecodeRun.runs_ws (h : DecodeRun p vs seen s) (hcl : classify p ch = .ws) (acts more : List HostAction) :
    ∃ t, runs s (issue (.decc ch) :: acts) more = runs t acts more ∧ DecodeRun p vs seen t :=
  ⟨_, h.runs_decc (by simp [ownFault, h.params, hcl]) acts more, (h.withHost _).effect_ws hcl⟩

theorem DecodeRun.runs_padCh (h : DecodeRun p vs seen s) (hcl : classify p ch = .padCh) (acts more : List HostAction) :
    ∃ t, runs s (issue (.decc ch) :: acts) more = runs t acts more ∧ DecodeRun p vs true t :=
  ⟨_, h.runs_decc (by simp [ownFault, h.params, hcl]) acts more, (h.withHost _).effect_padCh hcl⟩

theorem DecodeRun.runs_sym (h : DecodeRun p vs false s) {v : Sym6} (hcl : classify p ch = .sym v)
    (acts more : List HostAction) :
    ∃ t, runs s (issue (.decc ch) :: acts) more = runs t acts more ∧ DecodeRun p (vs ++ [v]) false t :=
  ⟨_, h.runs_decc (by simp [ownFault, h.params, hcl, h.padSeen]) acts more, (h.withHost _).effect_sym hcl⟩

/-- After a `=`, whitespace and further `=` leave the run as it is. -/
theorem DecodeRun.runs_padding (cs : List Byte) (acts more : List HostAction) (h : DecodeRun p vs true s)
    (hpad : (withoutWs p cs).all (· == padChar) = true) :
    ∃ t, runs s (cs.map (fun c => issue (.decc c)) ++ acts) more = runs t acts more ∧ DecodeRun p vs true t := by
  induction cs generalizing s with
  | nil => exact ⟨s, rfl, h⟩
  | cons c cs ih =>
    by_cases hws : isWS p c = true
    · obtain ⟨t, hrun, ht⟩ := h.runs_ws (classify_eq_ws.2 hws) _ more
      obtain ⟨u, hruns, hu⟩ := ih ht (by rwa [withoutWs_cons_ws hws] at hpad)
      exact ⟨u, hrun.trans hruns, hu⟩
    · rw [withoutWs_cons (Bool.eq_false_of_not_eq_true hws), List.all_cons, Bool.and_eq_true, beq_iff_eq] at hpad
      obtain ⟨hc, hpad⟩ := hpad
      obtain ⟨t, hrun, ht⟩ := h.runs_padCh ((classify_eq_padCh h.wf).2 hc) _ more
      obtain ⟨u, hruns, hu⟩ := ih ht hpad
      exact ⟨u, hrun.trans hruns, hu⟩

/-- R76: in a live run without a `=`, DECC of every character of an acceptable text takes the symbols of the text. -/
theorem DecodeRun.runs_text (cs : List Byte) (acts more : List HostAction) (h : DecodeRun p vs false s)
    (hok : acceptable (withoutWs p cs) = true) :
    ∃ t, runs s (cs.map (fun c => issue (.decc c)) ++ acts) more = runs t acts more ∧
      DecodeRun p (vs ++ symbolsOf p cs) (decide (padChar ∈ cs)) t := by
  have hp := h.wf
  induction cs generalizing vs s with
  | nil => exact ⟨s, rfl, by simpa [symbolsOf, withoutWs, beforePad] using h⟩
  | cons c cs ih =>
    by_cases hws : isWS p c = true
    · obtain ⟨-, hne⟩ := wf_ws_disjoint hp hws
      obtain ⟨t, hrun, ht⟩ := h.runs_ws (classify_eq_ws.2 hws) _ more
      obtain ⟨u, hruns, hu⟩ := ih ht (by rwa [withoutWs_cons_ws hws] at hok)
      exact ⟨u, hrun.trans hruns, by simpa [symbolsOf_ws hws, hne.symm] using hu⟩
    rw [withoutWs_cons (Bool.eq_false_of_not_eq_true hws)] at hok
    by_cases hpad : c = padChar
    · subst hpad
      rw [acceptable_padChar] at hok
      obtain ⟨t, hrun, ht⟩ := h.runs_padCh ((classify_eq_padCh hp).2 rfl) _ more
      obtain ⟨u, hruns, hu⟩ := ht.runs_padding cs acts more hok
      exact ⟨u, hrun.trans hruns, by simpa [symbolsOf_padChar hp] using hu⟩
    · rw [acceptable_cons hpad, Bool.and_eq_true, Option.isSome_iff_exists] at hok
      obtain ⟨⟨v, hv⟩, hok⟩ := hok
      obtain ⟨t, hrun, ht⟩ := h.runs_sym ((classify_eq_sym hp).2 hv) _ more
      obtain ⟨u, hruns, hu⟩ := ih ht hok
      exact ⟨u, hrun.trans hruns, by simpa [symbolsOf_sym hp hv, Ne.symm hpad] using hu⟩

/-- 43_decoder.md R72, R76: DECS and DECC of every character of an acceptable text, whatever follows. -/
theorem runs_decodePrefix (cs : List Byte) (acts more : List HostAction) (h : Inv s) (hm : s.mode = .idle)
    (hmax : s.params.maxOut = none) (hok : acceptable (withoutWs s.params cs) = true) :
    ∃ t, runs s (decodePrefix cs ++ acts) more = runs t acts more ∧
      DecodeRun s.params (symbolsOf s.params cs) (decide (padChar ∈ cs)) t := by
  have hstart := decodeRun_effect_decs (s := { s with host := cs.map (fun c => issue (.decc c)) ++ acts ++ more })
    h hm hmax
  obtain ⟨t, hrun, ht⟩ := hstart.runs_text cs acts more hok
  exact ⟨t, (runs_effect (decode_encode .decs) (inv_admitted h) hm trivial).trans hrun, ht⟩

end

/-! ## The obligations -/

/-- Settles O49, by induction on the text. -/
theorem decodeRunState : Obligations.DecodeRunState := by
  intro s cs more h hm hmax hok vs hvs
  obtain ⟨t, hrun, ht⟩ := runs_decodePrefix cs [] more h hm hmax hok
  rw [List.append_nil] at hrun
  rw [← hvs] at ht
  obtain ⟨hlive, hbc, -, hcol, hdone⟩ := (inv_dec_iff ht.mode).1 ht.inv
  refine ⟨_, hrun, ht.mode, hbc, ht.cc, ht.acc, ht.out, ?_, ?_, hdone, hlive.cause, hcol, ht.params, rfl⟩
  · exact (congrArg List.length ht.out).trans (groupedBytes_length vs)
  · exact (Bool.eq_iff_iff.1 ht.padSeen).trans decide_eq_true_iff

/-- Settles O8: under well-formed parameters the whitespace lies apart from the alphabet and `=`. -/
theorem characterClasses : Obligations.CharacterClasses := fun _ _ hp =>
  ⟨classify_eq_ws, classify_eq_padCh hp, classify_eq_bad, fun _ => classify_eq_sym hp⟩

/-- Settles O14: the check on the parameters comes before everything else. -/
theorem unspecifiedInstancesRefused : Obligations.UnspecifiedInstancesRefused := by
  refine fun s => ⟨fun hstrict => ?_, fun hlenient hwf => ?_⟩
  · have hrefusal : instanceRefusal s.params = some .strictPadCheck := by simp [instanceRefusal, hstrict]
    exact ⟨step_refused hrefusal, exec_refused hrefusal⟩
  · have hrefusal : instanceRefusal s.params = some .illFormedParams := by simp [instanceRefusal, hlenient, hwf]
    exact ⟨step_refused hrefusal, exec_refused hrefusal⟩

/-- Settles O35: DECS is ready in every IDLE state. -/
theorem decsStartsDecodeRun : Obligations.DecsStartsDecodeRun :=
  ⟨decode_encode .decs, illegalElsewhere .decs, reservedArgFaults rfl, fun _ ha hm => exec_run (i := .decs) ha hm trivial⟩

/-- Settles O36, by the class of the character. -/
theorem deccDecodesOneCharacter : Obligations.DeccDecodesOneCharacter := by
  refine fun ch => ⟨decode_encode (.decc ch), illegalElsewhere (.decc ch), fun s ha hm => ?_⟩
  have hp : s.params.wf = true := ha.1
  refine ⟨fun hws => ?_, fun hpad => ?_, fun hws hpad hbad => ?_, fun v hv hseen hbc => ?_⟩
  · have hcl : classify s.params ch = .ws := classify_eq_ws.2 hws
    rw [exec_run (i := .decc ch) ha hm (by simp [Ready, hcl]), effect_decc_ws hcl]
    rfl
  · have hcl : classify s.params ch = .padCh := (classify_eq_padCh hp).2 hpad
    rw [exec_run (i := .decc ch) ha hm (by simp [Ready, hcl]), effect_decc_padCh hcl]
    rfl
  · refine takesFault_of_ownFault ha hm ?_
    cases hv : dec6 ch with
    | none => simp only [ownFault, classify_eq_bad.2 ⟨hws, hpad, hv⟩]
    | some v =>
      have hseen : s.padSeen = true := by simpa [hv] using hbad
      simp only [ownFault, (classify_eq_sym hp).2 hv, if_pos hseen]
  · have hcl : classify s.params ch = .sym v := (classify_eq_sym hp).2 hv
    refine ⟨fun hcc => ?_, fun h3 hroom => ?_⟩
    · have hslot : s.cc.toNat < 4 := Nat.lt_succ_of_lt hcc
      have hne : s.cc ≠ 3#3 := fun h => by simp [h] at hcc
      have hready : Ready (.decc ch) s := by simp [Ready, hcl, hseen, hslot, hbc, hne]
      refine ⟨(s.putSym v).acc, (s.putSym v).cc, ?_, cc_succ hslot, symSlot_putSym s v,
        fun k hk => putSym_acc_apart hslot v hk⟩
      rw [exec_run (i := .decc ch) ha hm hready, effect_decc_fill hcl hne]
      rfl
    · have hready : Ready (.decc ch) s := by simp [Ready, hcl, hseen, hbc, h3, hroom]
      refine ⟨_, exec_run (i := .decc ch) ha hm hready, ?_⟩
      rw [effect_decc_drain hcl h3, heldBytes_putSym h3]
      exact ⟨rfl, State.pushAll_data s.clearTcs _⟩

/-- Settles O37: the bytes held are flushed, as many as CC says. -/
theorem deceEndsDecodeRun : Obligations.DeceEndsDecodeRun := by
  refine ⟨decode_encode .dece, illegalElsewhere .dece, reservedArgFaults rfl, fun s ha hm hbc g hg hroom => ?_⟩
  obtain ⟨hcc, rfl⟩ : s.cc.toNat ≤ 4 ∧ g = heldBytes s := by
    rw [heldBytes_eq_take]
    obtain ⟨hcc, rfl⟩ | ⟨hcc, rfl⟩ | ⟨hcc, rfl⟩ | ⟨hcc, rfl⟩ := hg <;> exact ⟨by simp [hcc], by rw [hcc]; rfl⟩
  rw [heldBytes_length] at hroom
  exact ⟨_, exec_run (i := .dece) ha hm ⟨hbc, hcc, .inr hroom⟩, rfl, State.pushAll_data s.clearTcs _⟩

end Sys2Proof.Proofs.DecoderFamily

/-! # Proofs of the family 44_whole_run.md

The characters of an encode run as values and padding, and the bytes of the values; the lines of the output; the text that
a decode run accepts and the characters it rejects; decoding as the inverse of encoding; the two whole runs, ended by
ENCE, by DECE or by a fault; then the obligations. -/

namespace Sys2Proof.Proofs.WholeRunFamily

open Sys2Proof Sys2Proof.Machine Sys2Proof.Safety Sys2Proof.Proofs.StateFamily Sys2Proof.Proofs.MemoryFamily
  Sys2Proof.Proofs.EncodingFamily Sys2Proof.Proofs.EncoderFamily Sys2Proof.Proofs.DecoderFamily

/-! ## The values of the accumulator -/

/-- The four symbol slots of the accumulator (10_state.md R11). -/
def slotsOf (acc : Acc24) : List Sym6 := [symSlot acc 0, symSlot acc 1, symSlot acc 2, symSlot acc 3]

/-- The bytes that the first `n` symbols of the accumulator make complete (41_core_decode.md R62). -/
theorem wholeBytes_slotsOf_take (acc : Acc24) {n : Nat} (hn : n ≤ 4) :
    wholeBytes (((slotsOf acc).take n).flatMap bitsOf) =
      [byteLane acc 0, byteLane acc 1, byteLane acc 2].take (n - 1) := by
  have hfull := wholeBytes_group (symSlot acc 0) (symSlot acc 1) (symSlot acc 2) (symSlot acc 3)
  have hpack : packSyms (slotsOf acc) = acc := symSlots_append acc
  rw [← slotsOf, hpack] at hfull
  interval_cases n
  · rfl
  · rfl
  · exact congrArg (List.take 1) hfull
  · exact congrArg (List.take 2) hfull
  · exact hfull

/-- At most four values are those of the first slots of the accumulator that holds them. -/
theorem slotsOf_packSyms_take {vs : List Sym6} (h : vs.length ≤ 4) :
    (slotsOf (packSyms vs)).take vs.length = vs := by
  simp only [slotsOf, symSlot_packSyms _ (by decide : 0 < 4), symSlot_packSyms _ (by decide : 1 < 4),
    symSlot_packSyms _ (by decide : 2 < 4), symSlot_packSyms _ (by decide : 3 < 4)]
  match vs, h with
  | [], _ | [_], _ | [_, _], _ | [_, _, _], _ | [_, _, _, _], _ => rfl

/-! ## The characters of an encode run -/

/-- The 6-bit values of an input, the last group filled up with zero bits (44_whole_run.md R77). -/
def valuesOf : List Byte → List Sym6
  | x :: y :: z :: rest => slotsOf (x ++ (y ++ z)) ++ valuesOf rest
  | [x, y] => (slotsOf (x ++ (y ++ 0#8))).take 3
  | [x] => (slotsOf (x ++ (0#8 ++ 0#8))).take 2
  | [] => []

/-- How many `=` end the output for `k` bytes of input (R81). -/
def padCount (np : Bool) (k : Nat) : Nat := if np then 0 else [0, 2, 1].getD (k % 3) 0

theorem groupOf3_eq (x y z : Byte) : groupOf3 x y z = (slotsOf (x ++ (y ++ z))).map enc6 := by
  obtain ⟨h0, h1, h2, h3⟩ := symSlot_lanes x y z
  simp only [slotsOf, h0, h1, h2, h3]
  rfl

theorem groupOf2_eq (x y : Byte) : groupOf2 x y = ((slotsOf (x ++ (y ++ 0#8))).take 3).map enc6 := by
  rw [List.map_take, ← groupOf3_eq]
  rfl

theorem groupOf1_eq (x : Byte) : groupOf1 x = ((slotsOf (x ++ (0#8 ++ 0#8))).take 2).map enc6 := by
  rw [List.map_take, ← groupOf3_eq]
  rfl

theorem tailGroup_eq_drop (np : Bool) (bs : List Byte) :
    tailGroup np (bs.drop (3 * (bs.length / 3))) = tailGroup np bs := by
  match bs with
  | [] | [_] | [_, _] => simp
  | x :: y :: z :: rest =>
    rw [drop_fullGroup, tailGroup_eq_drop np rest]
    rfl

/-- R77: the characters are those of the values, then the padding. -/
theorem encodeChars_eq (np : Bool) (bs : List Byte) :
    encodeChars np bs = (valuesOf bs).map enc6 ++ List.replicate (padCount np bs.length) padChar := by
  match bs with
  | [] => cases np <;> rfl
  | [x] => simp only [encodeChars, fullGroups, tailGroup, groupOf1_eq]; cases np <;> rfl
  | [x, y] => simp only [encodeChars, fullGroups, tailGroup, groupOf2_eq]; cases np <;> rfl
  | x :: y :: z :: rest =>
    have hpad : padCount np (x :: y :: z :: rest).length = padCount np rest.length := by
      simp only [padCount, List.length_cons, Nat.add_assoc, Nat.add_mod_right]
    have hrest := encodeChars_eq np rest
    simp only [encodeChars] at hrest
    rw [encodeChars, fullGroups, tailGroup, List.append_assoc, hrest, valuesOf, groupOf3_eq, hpad, List.map_append,
      List.append_assoc]

/-- R81: the number of symbols. -/
theorem valuesOf_length (bs : List Byte) :
    (valuesOf bs).length = 4 * (bs.length / 3) + [0, 2, 3].getD (bs.length % 3) 0 := by
  match bs with
  | [] | [_] | [_, _] => simp [valuesOf, slotsOf]
  | x :: y :: z :: rest =>
    have hdiv : (rest.length + 3) / 3 = rest.length / 3 + 1 := Nat.add_div_right _ (by decide)
    have hmod : (rest.length + 3) % 3 = rest.length % 3 := Nat.add_mod_right _ _
    rw [valuesOf, List.length_append, valuesOf_length rest]
    simp only [List.length_cons, slotsOf, List.length_nil, Nat.add_assoc, Nat.reduceAdd, hdiv, hmod]
    omega

/-- R81: with padding, the characters come to whole groups of 4. -/
theorem valuesOf_length_add_padCount (bs : List Byte) :
    (valuesOf bs).length + padCount false bs.length = 4 * ((bs.length + 2) / 3) := by
  rw [valuesOf_length, padCount, if_neg (by decide)]
  rcases (by omega : bs.length % 3 = 0 ∨ bs.length % 3 = 1 ∨ bs.length % 3 = 2) with h | h | h <;>
    simp only [h, List.getD_cons_zero, List.getD_cons_succ] <;> omega

theorem padCount_le_two (np : Bool) (k : Nat) : padCount np k ≤ 2 := by
  have hlt : k % 3 < 3 := Nat.mod_lt _ (by decide)
  rw [padCount]
  generalize k % 3 = r at hlt
  revert np r
  decide

/-- R79: the bytes of an input's values are the input. -/
theorem wholeBytes_valuesOf (bs : List Byte) : wholeBytes ((valuesOf bs).flatMap bitsOf) = bs := by
  match bs with
  | [] => rfl
  | [x] =>
    obtain ⟨h0, -, -⟩ := byteLane_lanes x 0#8 0#8
    exact (wholeBytes_slotsOf_take _ (by decide)).trans (congrArg (fun b => [b]) h0)
  | [x, y] =>
    obtain ⟨h0, h1, -⟩ := byteLane_lanes x y 0#8
    exact (wholeBytes_slotsOf_take _ (by decide)).trans (congrArg₂ (fun b c => [b, c]) h0 h1)
  | x :: y :: z :: rest =>
    obtain ⟨h0, h1, h2⟩ := byteLane_lanes x y z
    have hgroup := wholeBytes_slotsOf_take (x ++ (y ++ z)) le_rfl
    rw [h0, h1, h2] at hgroup
    have hwhole : ((slotsOf (x ++ (y ++ z))).flatMap bitsOf).length % 8 = 0 := by
      rw [flatMap_bitsOf_length]
      exact Nat.mod_eq_zero_of_dvd ⟨3, rfl⟩
    rw [valuesOf, List.flatMap_append, wholeBytes_append _ hwhole, wholeBytes_valuesOf rest]
    exact congrArg (· ++ rest) hgroup

/-! ## The lines of the output -/

/-- The wrap adds line breaks only. -/
theorem filter_wrapFrom {q : Byte → Bool} (hq : q lf = false) (width i : Nat) (cs : List Byte) :
    (wrapFrom width i cs).filter q = cs.filter q := by
  fun_induction wrapFrom width i cs with
  | case1 | case2 => rfl
  | case3 i c d cs hline ih =>
    rw [List.filter_cons, List.filter_cons_of_neg (by simp [hq]), ih, ← List.filter_cons]
  | case4 i c d cs hline ih =>
    rw [List.filter_cons, ih, ← List.filter_cons]

theorem filter_onLines {q : Byte → Bool} (hq : q lf = false) (width : Nat) (lw : Bool) (cs : List Byte) :
    (onLines width lw cs).filter q = cs.filter q := by
  cases lw with
  | false => rfl
  | true => exact filter_wrapFrom hq width 1 cs

/-- 44_whole_run.md R77: but for line breaks, the output is its characters. -/
theorem filter_encodeText {q : Byte → Bool} (hq : q lf = false) (width : Nat) (lw np : Bool) (bs : List Byte) :
    (encodeText width lw np bs).filter q = (encodeChars np bs).filter q := by
  rw [encodeText, List.filter_append, filter_onLines hq, List.filter_cons_of_neg (by simp [hq]), List.filter_nil,
    List.append_nil]

/-- R83: no line break follows the last character. -/
theorem wrapFrom_getLast? (width i : Nat) (cs : List Byte) : (wrapFrom width i cs).getLast? = cs.getLast? := by
  fun_induction wrapFrom width i cs with
  | case1 | case2 => rfl
  | case3 i c d cs hline ih => simp [List.getLast?_cons, ih]
  | case4 i c d cs hline ih => simp [List.getLast?_cons, ih]

theorem onLines_getLast? (width : Nat) (lw : Bool) (cs : List Byte) : (onLines width lw cs).getLast? = cs.getLast? := by
  cases lw with
  | false => rfl
  | true => exact wrapFrom_getLast? width 1 cs

/-- R85: a line break for each multiple of the width that is the index of a character but the last. -/
theorem wrapFrom_length (width i : Nat) (c : Byte) (cs : List Byte) :
    (wrapFrom width (i + 1) (c :: cs)).length + i / width = cs.length + 1 + (i + cs.length) / width := by
  induction cs generalizing i c with
  | nil => rfl
  | cons d cs ih =>
    have hnext := ih (i + 1) d
    have hbreak : (i + 1) / width = i / width + if (i + 1) % width = 0 then 1 else 0 := by
      rw [Nat.succ_div]
      simp only [Nat.dvd_iff_mod_eq_zero]
    rw [Nat.add_right_comm i 1 cs.length, hbreak] at hnext
    rw [wrapFrom, List.length_cons, ← Nat.add_assoc]
    by_cases hline : (i + 1) % width = 0
    · rw [if_pos hline] at hnext ⊢
      rw [List.length_cons, List.length_cons]
      omega
    · rw [if_neg hline] at hnext ⊢
      rw [List.length_cons]
      omega

theorem onLines_length (width : Nat) (lw : Bool) (cs : List Byte) :
    (onLines width lw cs).length = cs.length + if lw = false ∨ cs.length = 0 then 0 else (cs.length - 1) / width := by
  cases lw with
  | false => simp [onLines]
  | true =>
    cases cs with
    | nil => rfl
    | cons c cs => simpa [onLines] using wrapFrom_length width 0 c cs

/-- R85: the output is its characters, the line breaks between them and the one at the end. -/
theorem encodeText_length (width : Nat) (lw np : Bool) (bs : List Byte) {c : Nat} (hc : (encodeChars np bs).length = c) :
    (encodeText width lw np bs).length = c + 1 + if lw = false ∨ c = 0 then 0 else (c - 1) / width := by
  rw [encodeText, List.length_append, onLines_length, hc, List.length_singleton, Nat.add_right_comm]

theorem encodeChars_length (np : Bool) (bs : List Byte) :
    (encodeChars np bs).length = (valuesOf bs).length + padCount np bs.length := by
  rw [encodeChars_eq, List.length_append, List.length_map, List.length_replicate]

/-- R82: the characters are symbols, and `=` with padding on. -/
theorem mem_encodeChars {np : Bool} {bs : List Byte} {c : Byte} (h : c ∈ encodeChars np bs) :
    (∃ v, c = enc6 v) ∨ (c = padChar ∧ np = false) := by
  rw [encodeChars_eq, List.mem_append, List.mem_map, List.mem_replicate] at h
  obtain ⟨v, -, hv⟩ | ⟨hne, hc⟩ := h
  · exact .inl ⟨v, hv.symm⟩
  · exact .inr ⟨hc, by cases np <;> simp_all [padCount]⟩

theorem lf_notMem_encodeChars (np : Bool) (bs : List Byte) : lf ∉ encodeChars np bs := fun h => by
  obtain ⟨v, hv⟩ | ⟨hpad, -⟩ := mem_encodeChars h
  · exact enc6_ne_lf v hv.symm
  · exact lf_ne_padChar hpad

theorem mem_encodeText {width : Nat} {lw np : Bool} {bs : List Byte} {c : Byte} (h : c ∈ encodeText width lw np bs) :
    c = lf ∨ c ∈ encodeChars np bs := by
  by_cases hc : c = lf
  · exact .inl hc
  · have hmem : c ∈ (encodeText width lw np bs).filter (· != lf) := by simpa [hc] using h
    rw [filter_encodeText (by simp)] at hmem
    exact .inr (List.mem_of_mem_filter hmem)

/-- R81: how many bytes of the output meet `q`, which no line break does. -/
theorem countP_encodeText {q : Byte → Bool} (hq : q lf = false) (width : Nat) (lw np : Bool) (bs : List Byte) :
    (encodeText width lw np bs).countP q =
      (valuesOf bs).countP (fun v => q (enc6 v)) + if q padChar then padCount np bs.length else 0 := by
  rw [List.countP_eq_length_filter, filter_encodeText hq, ← List.countP_eq_length_filter, encodeChars_eq,
    List.countP_append, List.countP_map, List.countP_replicate]
  rfl

/-! ## The text a decode run accepts -/

theorem acceptable_nil : acceptable [] = true := rfl

/-- 44_whole_run.md R78: an accepted text goes on with a `=`, or with a symbol if no `=` came before. -/
theorem acceptable_concat (cs : List Byte) (c : Byte) :
    acceptable (cs ++ [c]) = true ↔
      acceptable cs = true ∧ (c = padChar ∨ ((dec6 c).isSome = true ∧ padChar ∉ cs)) := by
  induction cs with
  | nil =>
    by_cases hc : c = padChar
    · subst hc
      simp [acceptable_padChar, acceptable_nil]
    · simp [acceptable_cons hc, acceptable_nil, hc]
  | cons x xs ih =>
    by_cases hx : x = padChar
    · subst hx
      simp [acceptable_padChar]
    · rw [List.cons_append, acceptable_cons hx, acceptable_cons hx, Bool.and_eq_true, Bool.and_eq_true, ih,
        List.mem_cons, not_or, and_assoc]
      simp [Ne.symm hx]

theorem acceptable_of_append {cs ds : List Byte} (h : acceptable (cs ++ ds) = true) : acceptable cs = true := by
  induction ds using List.reverseRecOn with
  | nil => simpa using h
  | append_singleton ds d ih =>
    rw [← List.append_assoc, acceptable_concat] at h
    exact ih h.1

/-- What makes a decode run reject the character `c` after the characters `before` (R84). -/
def Rejects (p : Params) (before : List Byte) (c : Byte) : Prop :=
  isWS p c = false ∧ c ≠ padChar ∧ (dec6 c = none ∨ padChar ∈ before)

section
variable {p : Params}

theorem withoutWs_append (cs ds : List Byte) : withoutWs p (cs ++ ds) = withoutWs p cs ++ withoutWs p ds :=
  List.filter_append ..

theorem padChar_mem_withoutWs (hp : p.wf = true) {cs : List Byte} : padChar ∈ withoutWs p cs ↔ padChar ∈ cs := by
  simp [withoutWs, isWS_padChar hp]

/-- An accepted text goes on with any character that is not rejected. -/
theorem acceptable_withoutWs_concat (hp : p.wf = true) (cs : List Byte) (c : Byte) :
    acceptable (withoutWs p (cs ++ [c])) = true ↔ acceptable (withoutWs p cs) = true ∧ ¬Rejects p cs c := by
  rw [withoutWs_append]
  by_cases hws : isWS p c = true
  · rw [withoutWs_cons_ws hws]
    simp [withoutWs, Rejects, hws]
  · rw [withoutWs_cons (Bool.eq_false_of_not_eq_true hws), show withoutWs p [] = [] from rfl, acceptable_concat,
      padChar_mem_withoutWs hp]
    cases hv : dec6 c <;> simp [Rejects, hws, hv, imp_iff_or_not, or_comm]

/-- R78: a text that is not accepted has a first character that is rejected. -/
theorem exists_first_rejected (hp : p.wf = true) {cs : List Byte} (h : acceptable (withoutWs p cs) = false) :
    ∃ before c after, cs = before ++ c :: after ∧ acceptable (withoutWs p before) = true ∧ Rejects p before c := by
  induction cs using List.reverseRecOn with
  | nil => cases h
  | append_singleton cs c ih =>
    cases hcs : acceptable (withoutWs p cs) with
    | false =>
      obtain ⟨before, d, after, rfl, hrest⟩ := ih hcs
      exact ⟨before, d, after ++ [c], by simp, hrest⟩
    | true =>
      refine ⟨cs, c, [], rfl, hcs, ?_⟩
      by_contra hok
      rw [(acceptable_withoutWs_concat hp cs c).2 ⟨hcs, hok⟩] at h
      cases h

/-- R84: a text is not accepted exactly when a character of it is rejected. -/
theorem acceptable_eq_false_iff (hp : p.wf = true) {cs : List Byte} :
    acceptable (withoutWs p cs) = false ↔ ∃ before c after, cs = before ++ c :: after ∧ Rejects p before c := by
  constructor
  · intro h
    obtain ⟨before, c, after, hcs, -, hrej⟩ := exists_first_rejected hp h
    exact ⟨before, c, after, hcs, hrej⟩
  · rintro ⟨before, c, after, rfl, hrej⟩
    rw [← Bool.not_eq_true, List.append_cons, withoutWs_append]
    intro hok
    obtain ⟨-, hno⟩ := (acceptable_withoutWs_concat hp before c).1 (acceptable_of_append hok)
    exact hno hrej

/-- R84: the two kinds of character that a decode run rejects. -/
theorem exists_rejects_iff {cs : List Byte} :
    (∃ before c after, cs = before ++ c :: after ∧ Rejects p before c) ↔
      (∃ c ∈ cs, isWS p c = false ∧ c ≠ padChar ∧ dec6 c = none) ∨
        ∃ before after c, cs = before ++ padChar :: after ∧ c ∈ after ∧ isWS p c = false ∧ c ≠ padChar := by
  constructor
  · rintro ⟨before, c, after, rfl, hws, hne, hnone | hpad⟩
    · exact .inl ⟨c, by simp, hws, hne, hnone⟩
    · obtain ⟨b, a, rfl⟩ := List.append_of_mem hpad
      exact .inr ⟨b, a ++ c :: after, c, by simp, by simp, hws, hne⟩
  · rintro (⟨c, hc, hws, hne, hnone⟩ | ⟨before, after, c, rfl, hc, hws, hne⟩)
    · obtain ⟨b, a, rfl⟩ := List.append_of_mem hc
      exact ⟨b, c, a, rfl, hws, hne, .inl hnone⟩
    · obtain ⟨b, a, rfl⟩ := List.append_of_mem hc
      exact ⟨before ++ padChar :: b, c, a, by simp, hws, hne, .inr (by simp)⟩

/-- R78: an accepted text ends in its `=`. -/
theorem countP_beforePad {cs : List Byte} (h : acceptable cs = true) :
    (beforePad cs).countP (fun c => (dec6 c).isSome) = cs.countP fun c => (dec6 c).isSome := by
  rw [acceptable, Bool.and_eq_true, List.all_eq_true, List.all_eq_true] at h
  obtain ⟨-, hpad⟩ := h
  have hnone : (cs.dropWhile fun c => c != padChar).countP (fun c => (dec6 c).isSome) = 0 :=
    List.countP_eq_zero.2 fun c hc => by simp [beq_iff_eq.1 (hpad c hc)]
  conv_rhs => rw [← List.takeWhile_append_dropWhile (p := fun c => c != padChar) (l := cs), List.countP_append, hnone]
  rfl

/-- 43_decoder.md R70: no character of the alphabet is whitespace. -/
theorem countP_withoutWs (hp : p.wf = true) (cs : List Byte) :
    (withoutWs p cs).countP (fun c => (dec6 c).isSome) = cs.countP fun c => (dec6 c).isSome := by
  rw [withoutWs, List.countP_filter]
  refine List.countP_congr fun c _ => ?_
  cases hv : dec6 c with
  | none => simp
  | some v => simp [isWS_of_sym hp hv]

/-- R85: an accepted text has as many values as characters of the alphabet. -/
theorem symbolsOf_length (hp : p.wf = true) {cs : List Byte} (h : acceptable (withoutWs p cs) = true) :
    (symbolsOf p cs).length = cs.countP fun c => (dec6 c).isSome := by
  rw [symbolsOf, List.length_filterMap_eq_countP, countP_beforePad h, countP_withoutWs hp]

/-- R85: how many bytes the bits of `m` values make complete. -/
theorem div_eight_of_values (m : Nat) : 6 * m / 8 = 3 * (m / 4) + [0, 0, 1, 2].getD (m % 4) 0 := by
  rcases (by omega : m % 4 = 0 ∨ m % 4 = 1 ∨ m % 4 = 2 ∨ m % 4 = 3) with hmod | hmod | hmod | hmod <;>
    simp only [hmod, List.getD_cons_zero, List.getD_cons_succ] <;> omega

/-! ## Decoding as the inverse of encoding -/

theorem isWS_lf (hp : p.wf = true) : isWS p lf = true := by
  simp only [Params.wf, Bool.and_eq_true] at hp
  obtain ⟨⟨⟨-, hlf⟩, -⟩, -⟩ := hp
  exact hlf

/-- 44_whole_run.md R79: the whitespace of the output is its line breaks. -/
theorem withoutWs_encodeText (hp : p.wf = true) (width : Nat) (lw np : Bool) (bs : List Byte) :
    withoutWs p (encodeText width lw np bs) = encodeChars np bs := by
  rw [withoutWs, filter_encodeText (by simp [isWS_lf hp]), List.filter_eq_self]
  intro c hc
  obtain ⟨v, rfl⟩ | ⟨rfl, -⟩ := mem_encodeChars hc
  · rw [isWS_of_sym hp (dec6_enc6 v), Bool.not_false]
  · rw [isWS_padChar hp, Bool.not_false]

/-- The characters of values, and then padding, are accepted. -/
theorem acceptable_symbols (vs : List Sym6) (k : Nat) :
    acceptable (vs.map enc6 ++ List.replicate k padChar) = true := by
  induction vs with
  | nil => cases k <;> simp [acceptable_nil, List.replicate_succ, acceptable_padChar]
  | cons v vs ih => simp [acceptable_cons (enc6_ne_padChar v), ih]

theorem beforePad_symbols (vs : List Sym6) (k : Nat) :
    beforePad (vs.map enc6 ++ List.replicate k padChar) = vs.map enc6 := by
  rw [beforePad, List.takeWhile_append_of_pos (by simp [enc6_ne_padChar])]
  cases k <;> simp [List.replicate_succ]

/-- R79, R80: the closed forms of the two whole runs are inverse. -/
theorem decodeText_encodeText (hp : p.wf = true) (width : Nat) (lw np : Bool) (bs : List Byte) :
    decodeText p (encodeText width lw np bs) = some bs := by
  have hsyms : symbolsOf p (encodeText width lw np bs) = valuesOf bs := by
    rw [symbolsOf, withoutWs_encodeText hp, encodeChars_eq, beforePad_symbols, List.filterMap_map]
    simp
  rw [decodeText, hsyms, wholeBytes_valuesOf, withoutWs_encodeText hp, encodeChars_eq, acceptable_symbols, if_pos rfl]

end

/-! ## The last command of a run -/

/-- The cause of a live run is none, and its commands keep it. -/
theorem effect_cause_of_inv {i : Instr} {s : State} (h : Inv s) (hm : s.mode = legalMode i) :
    (effect i s).cause = .none := by
  obtain ⟨hlive, -⟩ := (inv_iff_live (hm ▸ legalMode_ne_fault i)).1 h
  exact (effect_cause i s).trans hlive.cause

/-- With unbounded OUT, a last command that raises no fault ends the run in its effect. -/
theorem runs_last {i : Instr} {s : State} (more : List HostAction) (h : Inv s) (hm : s.mode = legalMode i)
    (hown : ownFault i { s with host := more } = none) (hmax : s.params.maxOut = none) :
    runs s [issue i] more = .next (effect i { s with host := more }) ∧ Inv (effect i { s with host := more }) := by
  have hready : Ready i { s with host := more } := ready_of_inv h hm hown (hasRoom_unbounded hmax _)
  have hrun := runs_effect (acts := []) (more := more) (decode_encode i) (inv_admitted h) hm hready
  have hself : ∀ t : State, t.host = more → { t with host := more } = t := by
    rintro t rfl
    rfl
  rw [runs_nil, hself _ (effect_host i _)] at hrun
  exact ⟨hrun, inv_effect h hm hready⟩

/-! ## The end of an encode run -/

section
variable {p : Params} {s : State}

/-- 42_encoder.md R68: the final group of the closed form. -/
theorem padGroup_heldChars_eq_tailGroup {lw np : Bool} {chars held : List Byte}
    (h : EncodeRun p lw np chars held s) (hne : held ≠ []) : padGroup s.pad (heldChars s) = tailGroup np held := by
  have hlanes := h.acc.trans (packBytes_eq_lanes h.few)
  rcases held with _ | ⟨x, _ | ⟨y, _ | ⟨z, held⟩⟩⟩
  · exact absurd rfl hne
  · rw [padGroup_heldChars_one (BitVec.eq_of_toNat_eq h.bc) hlanes, h.padding]
    cases np <;> rfl
  · rw [padGroup_heldChars_two (BitVec.eq_of_toNat_eq h.bc) hlanes, h.padding]
    cases np <;> rfl
  · exact absurd h.few (by simp)

/-- R68: ENCE puts the final group on the lines of the output, and one line break after it. -/
theorem effect_ence_data {lw np : Bool} {chars held : List Byte} (h : EncodeRun p lw np chars held s) :
    (effect .ence s).out.data = onLines p.width lw (chars ++ tailGroup np held) ++ [lf] := by
  by_cases hne : held = []
  · subst hne
    have hbc : s.bc = 0#2 := BitVec.eq_of_toNat_eq h.bc
    rw [effect_ence_empty hbc, tailGroup, List.append_nil, ← h.out]
    exact State.pushAll_data s [lf]
  · have hbc : s.bc ≠ 0#2 := fun h0 => hne (List.eq_nil_of_length_eq_zero (by rw [← h.bc, h0]; rfl))
    have hgroup := padGroup_heldChars_eq_tailGroup h hne
    have hle : (tailGroup np held).length ≤ 4 := hgroup ▸ padGroup_heldChars_length_le s.pad s
    have hpos : 0 < (tailGroup np held).length := by
      have hheld : (heldChars s).length = s.bc.toNat + 1 := (heldChars_length s).trans (charCount_eq hbc)
      rw [← hgroup, padGroup_length _ _ (by omega), hheld]
      split <;> omega
    rw [effect_ence_flush hbc hgroup, ← h.emitted_data hpos hle]
    exact State.pushAll_data _ [lf]

/-- 42_encoder.md R68: ENCE leaves TCS clear. -/
theorem flushed_tcs (h : Inv s) (hm : s.mode = .enc) :
    s.flushed.acc = 0#24 ∧ s.flushed.bc = 0#2 ∧ s.flushed.cc = 0#3 := by
  obtain ⟨hlive, hcc, -⟩ := (inv_enc_iff hm).1 h
  obtain ⟨-, -, hzero, -⟩ := hlive.tcs
  unfold State.flushed
  split
  next hbc =>
    have hacc : s.acc = 0#24 := BitVec.eq_of_getLsbD_eq fun k hk => by simpa using hzero hcc k (by simpa [hbc] using hk)
    exact ⟨hacc, hbc, hcc⟩
  next => exact ⟨rfl, rfl, rfl⟩

theorem succeeded_effect_ence (h : Inv s) (hm : s.mode = .enc) : Succeeded (effect .ence s) :=
  ⟨rfl, rfl, effect_cause_of_inv h hm, flushed_tcs h hm⟩

/-- 44_whole_run.md R77: the whole encode run. -/
theorem runs_encodeProgram (lw np : Bool) (bs : List Byte) (more : List HostAction) (h : Inv s) (hm : s.mode = .idle)
    (hmax : s.params.maxOut = none) :
    ∃ t, runs s (encodeProgram lw np bs) more = .next t ∧ Inv t ∧ Succeeded t ∧ t.params = s.params ∧ t.host = more ∧
      t.out.data = encodeText s.params.width lw np bs := by
  obtain ⟨u, hrun, hu⟩ := runs_encodePrefix lw np bs [issue .ence] more h hm hmax
  have hlive := hu.withHost more
  obtain ⟨hend, hinv⟩ := runs_last (i := .ence) more hu.inv hu.mode rfl (by rw [hu.params, hmax])
  refine ⟨_, hrun.trans hend, hinv, succeeded_effect_ence hlive.inv hlive.mode,
    (effect_params _ _).trans hu.params, effect_host _ _, ?_⟩
  rw [encodeText, encodeChars, ← tailGroup_eq_drop np bs]
  exact effect_ence_data hlive

end

/-! ## The end of a decode run -/

section
variable {p : Params} {s : State}

/-- 43_decoder.md R74: the bytes of the full groups and those that DECE flushes are the bytes of all values. -/
theorem groupedBytes_append_heldBytes {vs : List Sym6} {seen : Bool} (h : DecodeRun p vs seen s) :
    groupedBytes vs ++ heldBytes s = wholeBytes (vs.flatMap bitsOf) := by
  have hlt : (heldSyms vs).length < 4 := heldSyms_length vs ▸ Nat.mod_lt _ (Nat.zero_lt_succ 3)
  have hcc : s.cc.toNat = (heldSyms vs).length := h.cc.trans (heldSyms_length vs).symm
  have hslots : (slotsOf s.acc).take (heldSyms vs).length = heldSyms vs := by
    rw [h.acc]
    exact slotsOf_packSyms_take hlt.le
  have hheld : heldBytes s = wholeBytes ((heldSyms vs).flatMap bitsOf) := by
    rw [← hslots, wholeBytes_slotsOf_take _ hlt.le, heldBytes, byteCount_eq (by omega), hcc]
  have hwhole : ((groupedSyms vs).flatMap bitsOf).length % 8 = 0 := by
    rw [flatMap_bitsOf_length, groupedSyms_length]
    omega
  rw [hheld, groupedBytes, ← wholeBytes_append _ hwhole, ← List.flatMap_append, groupedSyms_append_heldSyms]

theorem effect_dece_data {vs : List Sym6} {seen : Bool} (h : DecodeRun p vs seen s) :
    (effect .dece s).out.data = wholeBytes (vs.flatMap bitsOf) := by
  rw [effect_data rfl, h.out]
  exact groupedBytes_append_heldBytes h

/-- 44_whole_run.md R78: the whole decode run of an accepted text. -/
theorem runs_decodeProgram_accepted {cs : List Byte} (more : List HostAction) (h : Inv s) (hm : s.mode = .idle)
    (hmax : s.params.maxOut = none) (hok : acceptable (withoutWs s.params cs) = true) :
    ∃ t, runs s (decodeProgram cs) more = .next t ∧ t.params = s.params ∧ t.host = more ∧ Succeeded t ∧
      t.out.data = wholeBytes ((symbolsOf s.params cs).flatMap bitsOf) := by
  obtain ⟨u, hrun, hu⟩ := runs_decodePrefix cs [issue .dece] more h hm hmax hok
  have hlive := hu.withHost more
  obtain ⟨hend, -⟩ := runs_last (i := .dece) more hu.inv hu.mode rfl (by rw [hu.params, hmax])
  exact ⟨_, hrun.trans hend, (effect_params _ _).trans hu.params, effect_host _ _,
    ⟨rfl, rfl, effect_cause_of_inv (i := .dece) hlive.inv hlive.mode, rfl, rfl, rfl⟩, effect_dece_data hlive⟩

/-- 60_exceptions.md R92: after a fault the later commands of the run are ignored. -/
theorem runs_of_failed {c : Cause} (is : List Instr) (more : List HostAction) (ha : Admitted s) (hf : FailedWith c s) :
    ∃ t, runs s (is.map issue) more = .next t ∧ t.params = s.params ∧ t.host = more ∧ FailedWith c t := by
  induction is generalizing s with
  | nil => exact ⟨_, rfl, rfl, rfl, hf⟩
  | cons i is ih =>
    have hm : s.mode = .fault := hf.1
    have hignored := exec_fault (i := i) (s := { s with host := is.map issue ++ more }) ha hm
    obtain ⟨t, hrun, ht⟩ := ih (s := State.noResponse { s with host := is.map issue ++ more }) ha hf
    exact ⟨t, (runs_cons (decode_encode i) hignored rfl).trans hrun, ht⟩

/-- 43_decoder.md R73: a rejected character raises INVALID_INPUT. -/
theorem ownFault_of_rejects {vs : List Sym6} {before : List Byte} {c : Byte}
    (h : DecodeRun p vs (decide (padChar ∈ before)) s) (hrej : Rejects p before c) :
    ownFault (.decc c) s = some .invalidInput := by
  obtain ⟨hws, hne, hbad⟩ := hrej
  cases hv : dec6 c with
  | none => simp only [ownFault, h.params, classify_eq_bad.2 ⟨hws, hne, hv⟩]
  | some v =>
    have hseen : padChar ∈ before := by simpa [hv] using hbad
    simp [ownFault, h.params, (classify_eq_sym h.wf).2 hv, h.padSeen, hseen]

/-- R73, 60_exceptions.md R92: a rejected character ends a live run in failure, whatever commands follow. -/
theorem runs_of_rejects {vs : List Sym6} {before : List Byte} {c : Byte} (is : List Instr) (more : List HostAction)
    (h : DecodeRun p vs (decide (padChar ∈ before)) s) (hrej : Rejects p before c) :
    ∃ t, runs s (issue (.decc c) :: is.map issue) more = .next t ∧ t.params = p ∧ t.host = more ∧
      FailedWith .invalidInput t := by
  have hlive := h.withHost (is.map issue ++ more)
  have hadmitted := inv_admitted hlive.inv
  have hraise := exec_raises (i := .decc c) hadmitted hlive.mode (ownFault_of_rejects hlive hrej)
  obtain ⟨t, hrun, hparams, hend⟩ := runs_of_failed is more
    (s := State.faulted { s with host := is.map issue ++ more } .invalidInput) hadmitted ⟨rfl, rfl, rfl⟩
  exact ⟨t, (runs_cons (decode_encode _) hraise rfl).trans hrun, hparams.trans hlive.params, hend⟩

/-- The run of a text, up to a character of it and from there on. -/
theorem decodeProgram_append (before : List Byte) (c : Byte) (after : List Byte) :
    decodeProgram (before ++ c :: after) =
      decodePrefix before ++ issue (.decc c) :: (after.map Instr.decc ++ [Instr.dece]).map issue := by
  simp [decodeProgram, decodePrefix]

/-- 44_whole_run.md R78: the whole decode run of a text that is not accepted. -/
theorem runs_decodeProgram_rejected {cs : List Byte} (more : List HostAction) (h : Inv s) (hm : s.mode = .idle)
    (hmax : s.params.maxOut = none) (hbad : acceptable (withoutWs s.params cs) = false) :
    ∃ t, runs s (decodeProgram cs) more = .next t ∧ t.params = s.params ∧ t.host = more ∧
      FailedWith .invalidInput t := by
  obtain ⟨before, c, after, rfl, hok, hrej⟩ := exists_first_rejected (inv_wf h) hbad
  rw [decodeProgram_append]
  obtain ⟨u, hrun, hu⟩ := runs_decodePrefix before _ more h hm hmax hok
  obtain ⟨t, hrest, hend⟩ := runs_of_rejects (after.map Instr.decc ++ [Instr.dece]) more hu hrej
  exact ⟨t, hrun.trans hrest, hend⟩

/-- R84: success and failure of a run exclude each other. -/
theorem not_succeeded_of_failed {c : Cause} (hf : FailedWith c s) : ¬Succeeded s := fun ⟨hidle, _⟩ => by
  obtain ⟨hm, -⟩ := hf
  simp [hm] at hidle

end

/-! ## A run that has ended -/

/-- A run that answers `t` ends with the output of R77. -/
theorem encodeRun_data {s t : State} {lw np : Bool} {bs : List Byte} {more : List HostAction} (h : Inv s)
    (hm : s.mode = .idle) (hmax : s.params.maxOut = none) (hrun : runs s (encodeProgram lw np bs) more = .next t) :
    t.out.data = encodeText s.params.width lw np bs := by
  obtain ⟨u, hu, -, -, -, -, hdata⟩ := runs_encodeProgram lw np bs more h hm hmax
  rw [hu] at hrun
  cases hrun
  exact hdata

/-- A run that answers `t` has succeeded or failed as R78 says. -/
theorem decodeRun_ends {s t : State} {cs : List Byte} {more : List HostAction} (h : Inv s) (hm : s.mode = .idle)
    (hmax : s.params.maxOut = none) (hrun : runs s (decodeProgram cs) more = .next t) :
    (acceptable (withoutWs s.params cs) = true ∧ Succeeded t ∧
        t.out.data = wholeBytes ((symbolsOf s.params cs).flatMap bitsOf)) ∨
      (acceptable (withoutWs s.params cs) = false ∧ FailedWith .invalidInput t) := by
  cases hok : acceptable (withoutWs s.params cs) with
  | true =>
    obtain ⟨u, hu, -, -, hend⟩ := runs_decodeProgram_accepted more h hm hmax hok
    rw [hu] at hrun
    cases hrun
    exact .inl ⟨rfl, hend⟩
  | false =>
    obtain ⟨u, hu, -, -, hfailed⟩ := runs_decodeProgram_rejected more h hm hmax hok
    rw [hu] at hrun
    cases hrun
    exact .inr ⟨rfl, hfailed⟩

/-! ## The obligations -/

/-- Settles O48: the live run of the full groups, then the flush. -/
theorem encodeRunOutput : Obligations.EncodeRunOutput := by
  intro s lw np bs more h hm hmax
  obtain ⟨t, hrun, -, hend⟩ := runs_encodeProgram lw np bs more h hm hmax
  exact ⟨by simp [encodeProgram, encodePrefix], t, hrun, hend⟩

/-- Settles O50, by whether the text is accepted. -/
theorem decodeRunOutcome : Obligations.DecodeRunOutcome := by
  intro s cs more h hm hmax
  rw [decodeText]
  cases hok : acceptable (withoutWs s.params cs) with
  | true => exact runs_decodeProgram_accepted more h hm hmax hok
  | false => exact runs_decodeProgram_rejected more h hm hmax hok

/-- Settles O51: each run is its closed form, and the closed forms are inverse. -/
theorem roundTrip : Obligations.RoundTrip := by
  intro s lw np bs h hm hmax
  obtain ⟨t, hencode, hinv, hsucceeded, hparams, -, hout⟩ := runs_encodeProgram lw np bs [] h hm hmax
  have hidle : t.mode = .idle := hsucceeded.1
  obtain ⟨u, hdecode, -, -, hu⟩ := decodeRunOutcome t t.out.data [] hinv hidle (by rw [hparams, hmax])
  rw [hout, hparams, decodeText_encodeText (inv_wf h)] at hu
  obtain ⟨hend, hdata⟩ := hu
  exact ⟨t, u, hencode, hsucceeded, hdecode, hend, hdata⟩

/-- Settles O52, from the outcome of the run and the characters that are rejected. -/
theorem decodeFailsExactly : Obligations.DecodeFailsExactly := by
  intro s t cs h hm hmax hrun
  have hrejects := (acceptable_eq_false_iff (cs := cs) (inv_wf h)).trans exists_rejects_iff
  obtain ⟨hok, hsucceeded, -⟩ | ⟨hbad, hfailed⟩ := decodeRun_ends h hm hmax hrun
  · have hnot : ¬FailedWith .invalidInput t := fun hf => not_succeeded_of_failed hf hsucceeded
    exact ⟨⟨fun hf => absurd hf hnot, fun hrej => by simp [hrejects.2 hrej] at hok⟩, .inl hsucceeded⟩
  · exact ⟨⟨fun _ => hrejects.1 hbad, fun _ => hfailed⟩, .inr hfailed⟩

/-- Settles O53: the output is its characters and line breaks. -/
theorem outputAlphabet : Obligations.OutputAlphabet := by
  intro s t lw np bs h hm hmax hrun c hc
  rw [encodeRun_data h hm hmax hrun] at hc
  obtain rfl | hc := mem_encodeText hc
  · exact ⟨.inl rfl, fun _ => lf_ne_padChar⟩
  obtain ⟨v, rfl⟩ | ⟨rfl, hnp⟩ := mem_encodeChars hc
  · exact ⟨.inr (.inr (by simp)), fun _ => enc6_ne_padChar v⟩
  · exact ⟨.inr (.inl rfl), fun hnp' => by simp [hnp] at hnp'⟩

/-- Settles O54: the characters are symbols and padding, and no line break. -/
theorem outputFormat : Obligations.OutputFormat := by
  intro s t lw np bs h hm hmax hrun
  rw [encodeRun_data h hm hmax hrun]
  have hno : lf ∉ encodeChars np bs := lf_notMem_encodeChars np bs
  refine ⟨_, rfl, ?_, ?_, (valuesOf bs).map enc6, padCount np bs.length, ?_, padCount_le_two _ _, ?_, ?_, ?_⟩
  · rw [onLines_getLast?]
    exact fun hlast => hno (List.mem_of_getLast? hlast)
  · rintro rfl
    exact hno
  · rw [encodeChars_eq]
    rfl
  · simp
  · rintro rfl
    rw [List.length_map, valuesOf_length_add_padCount]
    exact Nat.mul_mod_right _ _
  · rintro rfl
    rfl

/-- Settles O55, from the numbers of values and of padding characters. -/
theorem groupSizing : Obligations.GroupSizing := by
  intro s t lw np bs h hm hmax hrun
  rw [encodeRun_data h hm hmax hrun]
  have hsym : ∀ v, (enc6 v == 0x3D#8) = false := fun v => beq_false_of_ne (enc6_ne_padChar v)
  have hpad : (padChar == 0x3D#8) = true := rfl
  refine ⟨?_, ?_, ?_⟩
  · rw [countP_encodeText (by simp), ← valuesOf_length]
    simp
  · rw [countP_encodeText (by decide)]
    simp [hsym, hpad, padCount]
  · rintro rfl
    rw [countP_encodeText (by decide), ← valuesOf_length_add_padCount]
    simp [hpad]

/-- Settles O56, from the number of characters and of line breaks between them. -/
theorem outputLengths : Obligations.OutputLengths := by
  intro s t lw np bs h hm hmax hrun c hc
  rw [encodeRun_data h hm hmax hrun]
  refine encodeText_length _ _ _ _ ?_
  rw [encodeChars_length, hc]
  cases np with
  | false => exact valuesOf_length_add_padCount bs
  | true => exact valuesOf_length bs

/-- Settles O57: an accepted text has as many values as characters of the alphabet. -/
theorem decodedLength : Obligations.DecodedLength := by
  intro s t cs h hm hmax hrun hdone m hmm
  obtain ⟨hok, -, hdata⟩ | ⟨-, -, hundone, -⟩ := decodeRun_ends h hm hmax hrun
  · rw [hdata, wholeBytes_length, flatMap_bitsOf_length, symbolsOf_length (inv_wf h) hok, ← hmm]
    exact div_eight_of_values m
  · simp [hundone] at hdone

end Sys2Proof.Proofs.WholeRunFamily

/-! # Proofs of the family 60_exceptions.md

The fault of its own that a command raises, said once for all causes, and with it the faults that a command takes; then
the obligations. -/

namespace Sys2Proof.Proofs.ExceptionsFamily

open Sys2Proof Sys2Proof.Machine Sys2Proof.Safety Sys2Proof.Proofs.StateFamily Sys2Proof.Proofs.MemoryFamily
  Sys2Proof.Proofs.EncodingFamily Sys2Proof.Proofs.CoreEncodeFamily Sys2Proof.Proofs.DecoderFamily

/-! ## The fault of its own that a command raises -/

/-- 60_exceptions.md R88: the characters that DECC does not take in the state. -/
def CharRejected (s : State) (ch : Byte) : Prop :=
  isWS s.params ch = false ∧ ch ≠ padChar ∧ (dec6 ch = none ∨ s.padSeen = true)

theorem isRaw_of_protocolBroken {i : Instr} {s : State} (h : ProtocolBroken i s) : isRaw i = true := by
  cases i with
  | addb _ | getc | addc _ | getb => rfl
  | clr | encs _ _ | encb _ | ence | decs | decc _ | dece => exact h.elim

/-- 60_exceptions.md R88, by the class of the character. -/
theorem ownFault_decc {s : State} (hp : s.params.wf = true) (ch : Byte) (c : Cause) :
    ownFault (.decc ch) s = some c ↔ c = .invalidInput ∧ CharRejected s ch := by
  cases hcl : classify s.params ch with
  | ws => simp [ownFault, hcl, CharRejected, classify_eq_ws.1 hcl]
  | padCh =>
    have hpad : ch = padChar := (classify_eq_padCh hp).1 hcl
    simp only [ownFault, hcl]
    simp [CharRejected, hpad]
  | bad =>
    obtain ⟨hws, hpad, hnone⟩ := classify_eq_bad.1 hcl
    simp [ownFault, hcl, CharRejected, hws, hpad, hnone, @eq_comm _ c]
  | sym v =>
    have hv : dec6 ch = some v := (classify_eq_sym hp).1 hcl
    simp [ownFault, hcl, CharRejected, isWS_of_sym hp hv, ne_padChar_of_sym hv, hv, and_comm, @eq_comm _ c]

/-- 60_exceptions.md R88, R89: a command's own fault is that of a rejected character or of a broken row. -/
theorem ownFault_eq_some_iff {i : Instr} {s : State} {c : Cause} (hp : s.params.wf = true) :
    ownFault i s = some c ↔
      (c = .protocol ∧ ProtocolBroken i s) ∨ (c = .invalidInput ∧ ∃ ch, i = .decc ch ∧ CharRejected s ch) := by
  cases i with
  | addb _ | getc | addc _ | getb => simp [ownFault, ProtocolBroken, and_comm, @eq_comm _ c]
  | decc ch => simp [ownFault_decc hp, ProtocolBroken]
  | clr | encs _ _ | encb _ | ence | decs | dece => simp [ownFault, ProtocolBroken]

/-! ## The faults that a command takes -/

/-- 30_encoding.md R52 steps 4 and 5: a command takes ARGERR outside its MODE and, in its MODE, the fault of its own. -/
theorem takesFault_exec_iff {i : Instr} {s : State} {c : Cause} (ha : Admitted s) (hf : s.mode ≠ .fault) :
    TakesFault c s (exec i s) ↔
      (s.mode ≠ legalMode i ∧ c = .argErr) ∨ (s.mode = legalMode i ∧ ownFault i s = some c) := by
  constructor
  · rintro ⟨t, ht, ⟨hmode, -, hcause⟩, -⟩
    obtain ⟨-, ⟨hm, -⟩ | ⟨-, hm, rfl⟩ | ⟨hm, c', hown, rfl⟩ | ⟨hm, -, -, rfl⟩⟩ := exec_next ht
    · exact absurd hm hf
    · exact .inl ⟨hm, hcause.symm⟩
    · exact .inr ⟨hm, hown.trans (congrArg some hcause)⟩
    · exact absurd hmode (effect_ne_fault hm)
  · rintro (⟨hm, rfl⟩ | ⟨hm, hown⟩)
    · exact illegalElsewhere i s ha hf hm
    · exact takesFault_of_ownFault ha hm hown

/-- A fault other than ARGERR is one of the command's own (60_exceptions.md R87). -/
theorem takesFault_exec_own {i : Instr} {s : State} {c : Cause} (ha : Admitted s) (hf : s.mode ≠ .fault)
    (hc : c ≠ .argErr) : TakesFault c s (exec i s) ↔ s.mode = legalMode i ∧ ownFault i s = some c := by
  simp [takesFault_exec_iff ha hf, hc]

/-- ARGERR is never a fault of the command's own (60_exceptions.md R87). -/
theorem takesFault_exec_argErr {i : Instr} {s : State} (ha : Admitted s) (hf : s.mode ≠ .fault) :
    TakesFault .argErr s (exec i s) ↔ s.mode ≠ legalMode i := by
  simp [takesFault_exec_iff ha hf, ownFault_eq_some_iff ha.1]

/-! ## The obligations -/

/-- Settles O15: a word encodes no command, or it is taken as the command that it encodes. -/
theorem argErrExactly : Obligations.ArgErrExactly := by
  intro w s ha hf
  by_cases hill : ∀ i, decode w ≠ .command i
  · exact iff_of_true (takesFault_illegal ha hf hill) (.inl hill)
  · obtain ⟨i, hd⟩ : ∃ i, decode w = .command i := by simpa using hill
    rw [takeWord_command hd, takesFault_exec_argErr ha hf]
    simp [hd]

/-- Settles O16: PROTOCOL is a raw command's own fault, and raw commands are legal in IDLE. -/
theorem protocolExactly : Obligations.ProtocolExactly := by
  intro i s ha hf
  rw [takesFault_exec_own ha hf (by decide), ownFault_eq_some_iff ha.1]
  simp only [reduceCtorEq, true_and, false_and, or_false]
  exact and_congr_left fun hbroken => by rw [legalMode_of_isRaw (isRaw_of_protocolBroken hbroken)]

/-- Settles O17: INVALID_INPUT is DECC's own fault, and DECC is legal in DEC. -/
theorem invalidInputExactly : Obligations.InvalidInputExactly := by
  intro i s ha hf
  rw [takesFault_exec_own ha hf (by decide), ownFault_eq_some_iff ha.1]
  simp only [reduceCtorEq, true_and, false_and, false_or]
  exact and_congr_left fun ⟨_, hi, _⟩ => by rw [hi, legalMode]

/-- Settles O18: only fault entry leads from another MODE to FAULT. -/
theorem faultEntrySetsStatus : Obligations.FaultEntrySetsStatus := by
  intro i s t hf h ht
  obtain ⟨-, ⟨hm, -⟩ | ⟨-, -, rfl⟩ | ⟨-, c, hown, rfl⟩ | ⟨hm, -, -, rfl⟩⟩ := exec_next h
  · exact absurd hm hf
  · exact ⟨rfl, by simp, rfl, rfl, rfl⟩
  · exact ⟨rfl, ownFault_ne_none hown, rfl, rfl, rfl⟩
  · exact absurd ht (effect_ne_fault hm)

/-- Settles O19: the first check on a word is for FAULT. -/
theorem faultAbsorbsEveryWord : Obligations.FaultAbsorbsEveryWord := by
  intro s w rest ha hf hhost
  rw [step_command hhost, takeWord_fault (s := taken s) ha hf, taken, hhost]
  rfl

/-- Settles O20, from what a step can do: in FAULT no fault is entered and no command takes effect. -/
theorem faultLeftOnlyByReset : Obligations.FaultLeftOnlyByReset := by
  intro s t hf h
  obtain ⟨-, ⟨-, rfl⟩ | ⟨⟨rest, hhost⟩, rfl⟩ | ⟨hm, -⟩ | ⟨_, _, i, -, -, hm, -⟩⟩ := step_next h
  · exact .inr ⟨hf, rfl⟩
  · exact .inl ⟨rest, hhost, rfl, rfl⟩
  · exact absurd hf hm
  · exact absurd (hm.symm.trans hf) (legalMode_ne_fault i)

end Sys2Proof.Proofs.ExceptionsFamily

/-! # Proofs of the family 70_reset_and_hazards.md

A step of the waiting block, the completion of every command whose bytes fit, and the MODE in which a command of a live
run leaves the block; then the obligations. -/

namespace Sys2Proof.Proofs.ResetFamily

open Sys2Proof Sys2Proof.Machine Sys2Proof.Safety Sys2Proof.Proofs.StateFamily Sys2Proof.Proofs.MemoryFamily
  Sys2Proof.Proofs.WholeRunFamily Sys2Proof.Proofs.ExceptionsFamily

/-! ## Completion -/

/-- With no action pending, only the response goes: the last one is not latched (10_state.md R22). -/
theorem step_wait_run {s : State} (ha : Admitted s) (hh : s.host = []) : step s = .next s.noResponse := by
  rw [step, hh, waitForHost, onInstance_run ha]

/-- From a state of the invariant, a command whose bytes fit in OUT completes: it is ignored, faults or takes effect. -/
theorem exec_next_of_hasRoom {i : Instr} {s : State} (h : Inv s) (hroom : hasRoom s (appended i s).length = true) :
    ∃ t, exec i s = .next t := by
  have ha := inv_admitted h
  by_cases hf : s.mode = .fault
  · exact ⟨_, exec_fault ha hf⟩
  by_cases hm : s.mode = legalMode i
  · cases hown : ownFault i s with
    | some c => exact ⟨_, exec_raises ha hm hown⟩
    | none => exact ⟨_, exec_run ha hm (ready_of_inv h hm hown hroom)⟩
  · exact ⟨_, exec_elsewhere ha hf hm⟩

/-- With unbounded OUT every word presented to the block is answered by a next state. -/
theorem takeWord_next_of_unbounded {s : State} (h : Inv s) (hmax : s.params.maxOut = none) (w : CmdWord) :
    ∃ t, takeWord w s = .next t := by
  unfold takeWord
  cases decode w with
  | command i => exact exec_next_of_hasRoom h (hasRoom_unbounded hmax _)
  | reservedOpcode _ | reservedArg _ _ => exact illegalWord_completes (inv_admitted h)

/-! ## The commands of a live run -/

theorem mode_of_live {m : Mode} (hlive : m = .enc ∨ m = .dec) : m ≠ .idle ∧ m ≠ .fault := by
  rcases hlive with rfl | rfl <;> decide

/-- 10_state.md R15: a command of a live run keeps its MODE, unless it is ENCE or DECE. -/
theorem modeAfter_live {i : Instr} (hlive : legalMode i ≠ .idle) :
    (i = .ence ∨ i = .dece) ∨ modeAfter i = legalMode i := by
  cases i with
  | addb _ | getc | addc _ | getb | clr | encs _ _ | decs => exact absurd rfl hlive
  | encb _ | decc _ => exact .inr rfl
  | ence => exact .inl (.inl rfl)
  | dece => exact .inl (.inr rfl)

/-- 10_state.md R19: DONE is clear while a run is live. -/
theorem done_of_live {s : State} (h : Inv s) (hlive : s.mode = .enc ∨ s.mode = .dec) : s.done = false := by
  rcases hlive with hm | hm
  · obtain ⟨-, -, -, -, -, hdone, -⟩ := (inv_enc_iff hm).1 h
    exact hdone
  · obtain ⟨-, -, -, -, hdone⟩ := (inv_dec_iff hm).1 h
    exact hdone

/-- 43_decoder.md R74: DECE ends the run in success, with TCS clear. -/
theorem succeeded_effect_dece {s : State} (h : Inv s) (hm : s.mode = .dec) : Succeeded (effect .dece s) :=
  ⟨rfl, rfl, effect_cause_of_inv (i := .dece) h hm, rfl, rfl, rfl⟩

/-- 70_reset_and_hazards.md R109: a command of a live run that completes ends it in success or leaves it live. -/
theorem effect_live {i : Instr} {s : State} (h : Inv s) (hlive : s.mode = .enc ∨ s.mode = .dec)
    (hm : s.mode = legalMode i) (hr : Ready i s) :
    (Succeeded (effect i s) ∧ (i = .ence ∨ i = .dece)) ∨
      ((effect i s).mode = s.mode ∧ (effect i s).done = false) := by
  obtain ⟨hidle, -⟩ := mode_of_live hlive
  rcases modeAfter_live (hm ▸ hidle) with (rfl | rfl) | hafter
  · exact .inl ⟨succeeded_effect_ence h hm, .inl rfl⟩
  · exact .inl ⟨succeeded_effect_dece h hm, .inr rfl⟩
  · have hmode : (effect i s).mode = s.mode := (effect_mode hm).trans (hafter.trans hm.symm)
    exact .inr ⟨hmode, done_of_live (inv_effect h hm hr) (hmode ▸ hlive)⟩

/-! ## The obligations -/

/-- Settles O23: a wait and a reset are always taken, and a word completes as its bytes fit. -/
theorem everyStepCompletes : Obligations.EveryStepCompletes := by
  intro s h hmax
  have ha := inv_admitted h
  cases hh : s.host with
  | nil => exact ⟨_, step_wait_run ha hh⟩
  | cons a rest =>
    cases a with
    | reset => exact ⟨_, step_reset_run ha hh⟩
    | command w =>
      rw [step_command hh]
      exact takeWord_next_of_unbounded (s := taken s) h hmax w

/-- Settles O46: the next state is that of fault entry, or the effect of a command of the live run. -/
theorem runsEndInTwoWays : Obligations.RunsEndInTwoWays := by
  intro i s t h hlive hexec
  obtain ⟨hidle, hs⟩ := mode_of_live hlive
  by_cases hf : t.mode = .fault
  · obtain ⟨hdone, hcause, -⟩ := faultEntrySetsStatus i s t hs hexec hf
    exact ⟨fun hi => Mode.noConfusion (hf.symm.trans hi), fun _ => ⟨hdone, hcause⟩, fun _ hne => absurd hf hne⟩
  · obtain ⟨hm, hr, rfl⟩ := exec_completes hexec hf
    rcases effect_live h hlive hm hr with ⟨hend, hi⟩ | ⟨hmode, hdone⟩
    · have ⟨hback, _⟩ := hend
      exact ⟨fun _ => ⟨hend, hi⟩, fun h' => absurd h' hf, fun hne _ => absurd hback hne⟩
    · exact ⟨fun h' => absurd (hmode.symm.trans h') hidle, fun h' => absurd h' hf, fun _ _ => ⟨hmode, hdone⟩⟩

/-- Settles O11: the wait of the block is on an admitted instance. -/
theorem waitsForTheHost : Obligations.WaitsForTheHost := fun _ => step_wait_run

end Sys2Proof.Proofs.ResetFamily
